-- ==== Sys2Proof/Word.lean ====
section
/-! DEFINITION. The bit-vector types of the block (00_scope.md R9, R11): every value is unsigned and has one fixed width. -/

namespace Sys2Proof

/-- A wire byte or an operand byte (R9: "The wire byte is 8 bits wide"). -/
abbrev Byte := BitVec 8

/-- Half a byte (R9: "The nibble is 4 bits wide"). -/
abbrev Nibble := BitVec 4

/-- A host request word or a host response word (R63, R69). -/
abbrev Word := BitVec 16

/-- A 7-bit I2C device address (R39). -/
abbrev DevAddr := BitVec 7

end Sys2Proof
end

