-- ==== Sys2Proof/Syntax.lean ====
section
/-! DEFINITION. The host operation set TRX-HOST version 1 (00_scope.md R4, 30_encoding.md R64), one constructor per row of
spec/opcode_table.json. -/

namespace Sys2Proof

/-- A legal host request. The only operand of any request is its 8-bit data byte (10_state.md R29). -/
inductive Instr where
  /-- STATUS (R124): no operand. -/
  | status
  /-- INIT (R104): no operand. -/
  | init
  /-- WRITE_COMMAND (R96): the command byte, sent with RS = 0. -/
  | writeCommand (data : Byte)
  /-- WRITE_DATA (R98): the character byte, sent with RS = 1. -/
  | writeData (data : Byte)
  deriving DecidableEq, Repr

end Sys2Proof
end

