-- ==== Sys2Proof/Decode.lean ====
section
/-! DEFINITION. The request word (30_encoding.md R63 to R68): its fields, the decoder of R65, the encoder of R64, and the
rows of the opcode table. -/

namespace Sys2Proof

/-- Why a word is no request (R126, R127). -/
inductive Reject where
  /-- `OP` is `0x4` to `0xF` and `RSV` is 0 (R126). -/
  | reservedOpcode
  /-- `RSV` is not 0 (R127, and R126 whatever `OP` is). -/
  | nonzeroReserved
  /-- STATUS or INIT with a nonzero `DATA` (R127). -/
  | nonzeroOperand
  deriving DecidableEq, Repr

/-- What the decoder answers: a request, or ILLEGAL with the reason. -/
inductive Decoded where
  | legal (i : Instr)
  | illegal (why : Reject)
  deriving DecidableEq, Repr

/-- `OP`, bits 15:12 (R63). -/
def opField (w : Word) : BitVec 4 := w.extractLsb' 12 4

/-- `RSV`, bits 11:8 (R63). -/
def rsvField (w : Word) : BitVec 4 := w.extractLsb' 8 4

/-- `DATA`, bits 7:0 (R63). -/
def dataField (w : Word) : Byte := w.extractLsb' 0 8

/-- The decoder of R65, total over all 65,536 words. -/
def decode (w : Word) : Decoded :=
  if rsvField w ≠ 0 then .illegal .nonzeroReserved
  else if opField w = 0x0 then
    if dataField w = 0 then .legal .status else .illegal .nonzeroOperand
  else if opField w = 0x1 then
    if dataField w = 0 then .legal .init else .illegal .nonzeroOperand
  else if opField w = 0x2 then .legal (.writeCommand (dataField w))
  else if opField w = 0x3 then .legal (.writeData (dataField w))
  else .illegal .reservedOpcode

/-- The operation code of a request (R64). -/
def Instr.opcode : Instr → BitVec 4
  | .status => 0x0
  | .init => 0x1
  | .writeCommand _ => 0x2
  | .writeData _ => 0x3

/-- The operand field of a request: 0 where it has none (R63). -/
def Instr.operand : Instr → Byte
  | .status => 0
  | .init => 0
  | .writeCommand d => d
  | .writeData d => d

/-- The word of a request: `OP`, a zero `RSV`, `DATA` (R63, R64). -/
def encode (i : Instr) : Word := i.opcode ++ (0 : BitVec 4) ++ i.operand

/-- One row of the table of R64. -/
structure OpRow where
  mnemonic : String
  pattern  : Word
  mask     : Word
  deriving DecidableEq, Repr

/-- The rows of R64 and of spec/opcode_table.json. -/
def opcodeTable : List OpRow :=
  [ ⟨"STATUS",        0x0000, 0xFFFF⟩
  , ⟨"INIT",          0x1000, 0xFFFF⟩
  , ⟨"WRITE_COMMAND", 0x2000, 0xFF00⟩
  , ⟨"WRITE_DATA",    0x3000, 0xFF00⟩ ]

/-- A word matches a row when its masked bits are the row's pattern. -/
def OpRow.matchesWord (r : OpRow) (w : Word) : Bool := w &&& r.mask == r.pattern

/-- The row of a request. -/
def Instr.row : Instr → OpRow
  | .status => ⟨"STATUS", 0x0000, 0xFFFF⟩
  | .init => ⟨"INIT", 0x1000, 0xFFFF⟩
  | .writeCommand _ => ⟨"WRITE_COMMAND", 0x2000, 0xFF00⟩
  | .writeData _ => ⟨"WRITE_DATA", 0x3000, 0xFF00⟩

/-- What the decoder reads from the bits `w` of a table row: every request is one 16-bit parallel word (R44, R67), so bits
above 15 belong to no request. -/
def decodeTableWord (nbits w : Nat) : Option Instr :=
  if w % 2 ^ nbits < 2 ^ 16 then
    match decode (BitVec.ofNat 16 (w % 2 ^ nbits)) with
    | .legal i => some i
    | .illegal _ => none
  else none

end Sys2Proof
end

