-- ==== Sys2Proof/Config.lean ====
section
/-! DEFINITION. What an integrator fixes (the parameters of 00_scope.md R8), what the environment drives (the input ports
of 10_state.md R33), the LCD's interface state (42_init.md R114), and the values the spec leaves free. -/

namespace Sys2Proof

/-- The implementation parameters of R8 that the block is built from. `F_CLK`, the thirteenth, is a real number and stands beside
them, in `Elaboration`: no step reads it, only the constraints do (log entry 3). -/
structure Params where
  devAddr           : DevAddr
  dStrobe           : Nat
  dSettle           : Nat
  dInit1            : Nat
  dInit2            : Nat
  dInit3            : Nat
  dcntW             : Nat
  cfgFunctionSet    : Byte
  cfgDisplayControl : Byte
  cfgClear          : Byte
  cfgEntryMode      : Byte
  deriving DecidableEq, Repr

/-- The largest of the five delays, the one R8 sizes `DCNT_W` by. -/
def Params.maxDelay (p : Params) : Nat :=
  max p.dStrobe (max p.dSettle (max p.dInit1 (max p.dInit2 p.dInit3)))

/-- The constraints of R8 without the clock: every delay at least one cycle, and a `DCNT` wide enough for the largest
(`DCNT_W ≥ ceil(log2(max + 1))`, that is `max < 2 ^ DCNT_W`). -/
abbrev Params.Sized (p : Params) : Prop :=
  1 ≤ p.dStrobe ∧ 1 ≤ p.dSettle ∧ 1 ≤ p.dInit1 ∧ 1 ≤ p.dInit2 ∧ 1 ≤ p.dInit3 ∧ p.maxDelay < 2 ^ p.dcntW

/-- The constraints of R8 at the clock frequency `fClk`, a positive real in hertz: `D / F_CLK` is at least 1 ms, 5 ms, 4.5 ms,
5 ms and 1 ms for the five delays. -/
structure Params.LegalAt (p : Params) (fClk : ℝ) : Prop where
  clock  : 0 < fClk
  sized  : p.Sized
  strobe : (1 / 1000 : ℝ) ≤ p.dStrobe / fClk
  settle : (5 / 1000 : ℝ) ≤ p.dSettle / fClk
  init1  : (45 / 10000 : ℝ) ≤ p.dInit1 / fClk
  init2  : (5 / 1000 : ℝ) ≤ p.dInit2 / fClk
  init3  : (1 / 1000 : ℝ) ≤ p.dInit3 / fClk

/-- The parameters meet R8 at some clock frequency. As a hypothesis this is "for every `F_CLK` at which they do". -/
def Params.Legal (p : Params) : Prop := ∃ fClk : ℝ, p.LegalAt fClk

/-- The illustrative parameter set `EX` of R10, for tests only, at 1 kHz. R10 gives no `DCNT_W`: 3 bits are the fewest R8 allows
(log entry 19). -/
def Params.ex : Params where
  devAddr           := 0x27
  dStrobe           := 1
  dSettle           := 5
  dInit1            := 5
  dInit2            := 5
  dInit3            := 1
  dcntW             := 3
  cfgFunctionSet    := 0x28
  cfgDisplayControl := 0x0F
  cfgClear          := 0x01
  cfgEntryMode      := 0x06

/-- `EX` meets R8 at 1 kHz (R10). -/
theorem Params.ex_legalAt : Params.ex.LegalAt 1000 where
  clock  := by norm_num
  sized  := by decide
  strobe := by norm_num [Params.ex]
  settle := by norm_num [Params.ex]
  init1  := by norm_num [Params.ex]
  init2  := by norm_num [Params.ex]
  init3  := by norm_num [Params.ex]

/-- All the parameters of R8, with the proof that they meet it. The defaults only show that such parameters exist. -/
structure Elaboration where
  params : Params := Params.ex
  /-- `F_CLK`: "positive real, Hz" (R8). -/
  fClk   : ℝ := 1000
  legal  : params.LegalAt fClk := by exact Params.ex_legalAt
  deriving Inhabited

/-- The block's input ports as sampled at one rising edge of `clk` (R33); `clk` itself is the step. -/
structure Pins where
  rst          : Bool
  reqValid     : Bool
  reqWord      : Word
  respReady    : Bool
  busReqReady  : Bool
  busRespValid : Bool
  busRespErr   : BitVec 2
  deriving DecidableEq, Repr, Inhabited

/-- The interface state of the LCD controller, the environment model of R114. -/
inductive Lcd where
  /-- `E8`: 8-bit mode. -/
  | e8
  /-- `F4H`: 4-bit mode, awaiting a high nibble. -/
  | f4h
  /-- `F4L(h)`: 4-bit mode, holding high nibble `h` and awaiting the low nibble. -/
  | f4l (h : Nibble)
  deriving DecidableEq, Repr, Inhabited

/-- The parameters the block was elaborated with: any that meet R8 (log entry 2). -/
opaque Config.elaboration : Elaboration

/-- The parameters of the elaborated block. -/
def Config.params : Params := Config.elaboration.params

/-- They meet R8 at the block's own `F_CLK`. -/
theorem Config.params_legalAt : Config.params.LegalAt Config.elaboration.fClk := Config.elaboration.legal

theorem Config.params_legal : Config.params.Legal := ⟨_, Config.params_legalAt⟩

/-- What the environment drives at an edge for which no input is scheduled in the state: any value (log entry 5). -/
opaque Config.freePins : Nat → Pins

/-- The LCD controller's interface state where the spec calls it unknown (R36, R135, R151; U1, U2): any value, by edge
(log entry 10). -/
opaque Config.freeLcd : Nat → Lcd

/-- The expander's output register where the spec does not know it (R135, R150, R151): any value, by edge (log entry 10). -/
opaque Config.freeExpander : Nat → Byte

/-- The strobe byte's nibble where the spec does not know it: any value, by edge (log entry 10). -/
opaque Config.freeNibble : Nat → Nibble

/-- Which of the expander's outputs change at an edge at which a byte is in flight (R37: "only the transport knows"; R47: not all
eight at once): any of them, by edge (log entries 9 and 23). -/
opaque Config.outputsChanged : Nat → Byte

end Sys2Proof
end

