-- ==== Sys2Proof/Machine/State.lean ====
section
/-! DEFINITION. The state of the machine: the block's registers (10_state.md R17 to R28), the parameters its step takes as
arguments (R32), and the environment's side (R16, R36, R40): the inputs to come, the expander and the LCD behind it, and what
has been observed at the ports. -/

namespace Sys2Proof.Machine

/-- `PHASE` (R17). -/
inductive Phase where
  | uninitialized
  | eightBitTransition
  | fourBitMode
  | ready
  deriving DecidableEq, Repr

/-- `SEQ` (R21): six values, the codes 6 and 7 cannot be written. -/
inductive Seq where
  | idle
  | issue
  | await
  | delay
  | setph
  | respond
  deriving DecidableEq, Repr

/-- A bus write the transport has accepted, at the edge of its request handshake (R40, R78). -/
structure BusWrite where
  edge : Nat
  addr : DevAddr
  data : Byte
  deriving DecidableEq, Repr

/-- A response word the host has taken, at the edge of its handshake (R123). -/
structure Taken where
  edge : Nat
  word : Word
  deriving DecidableEq, Repr

/-- The machine between two rising edges of `clk`. -/
structure State where
  /-- The parameters of R8, arguments of the step that no step writes (R32, log entry 1). -/
  params    : Params
  /-- `PHASE`, 2 bits (R17). -/
  phase     : Phase
  /-- `FAILED`, 1 bit (R19). -/
  failed    : Bool
  /-- `SEQ`, 3 bits (R21). -/
  seq       : Seq
  /-- `OP` (R22). -/
  op        : BitVec 2
  /-- `DBYTE` (R23). -/
  dbyte     : Byte
  /-- `ACT`, the action index, the block's program counter (R24). -/
  act       : BitVec 6
  /-- `DCNT`, a `DCNT_W`-bit register, held as the number in it (R25, log entry 4). -/
  dcnt      : Nat
  /-- `WCNT` (R26). -/
  wcnt      : Byte
  /-- `OUTB` (R27). -/
  outb      : Byte
  /-- `RESP` (R28). -/
  resp      : Word
  /-- Environment: the input ports at the edges to come, next edge first (R33, log entry 5). -/
  inputs    : List Pins
  /-- Environment: the expander's output register (R143). -/
  expander  : Byte
  /-- Environment: the nibble of the strobe byte that the expander has taken last, which the controller latches when EN falls
  (R114, R164). -/
  strobed   : Nibble
  /-- Environment: the LCD controller's interface state (R36, R114). -/
  lcd       : Lcd
  /-- Observation: the bus writes accepted so far, newest first (R40). -/
  busTrace  : List BusWrite
  /-- Observation: the responses taken so far, newest first (R145). -/
  respTrace : List Taken
  /-- Observation: how many rising edges there have been; it also numbers the free values. -/
  edge      : Nat
  deriving DecidableEq, Repr

/-- Why the machine stops. Both reasons belong to register values that no run from reset has; the spec gives them no
effect, so the stop is safe (log entry 8). -/
inductive Fault where
  /-- Raised by `enter` (R77) for an action index above the list's length: `enter(i)` has no such case. Safe. -/
  | actionIndexPastEnd
  /-- Raised by the SETPH arm (R76) when the current action is not `P(p)`: the arm has no phase to write. Safe. -/
  | noPhaseAction
  deriving DecidableEq, Repr

/-- Why a request has no meaning in the model. -/
inductive Refusal where
  /-- Raised by an arm of `exec` whose instruction has no meaning yet: by none, every arm has one. Safe. -/
  | notModelled (mnemonic : String)
  deriving DecidableEq, Repr

/-- The registers of R38 at their reset values, in a block with the parameters `p`. No input is scheduled and nothing has
been observed; the LCD side is unknown (R36, R151). -/
def State.resetWith (p : Params) : State where
  params    := p
  phase     := .uninitialized
  failed    := false
  seq       := .idle
  op        := 0
  dbyte     := 0x00
  act       := 0
  dcnt      := 0
  wcnt      := 0
  outb      := 0x00
  resp      := 0x0000
  inputs    := []
  expander  := Config.freeExpander 0
  strobed   := Config.freeNibble 0
  lcd       := Config.freeLcd 0
  busTrace  := []
  respTrace := []
  edge      := 0

/-- The machine right after reset (R38, R148). -/
def State.reset : State := State.resetWith Config.params

end Sys2Proof.Machine
end

