-- ==== Sys2Proof/Machine/Flags.lean ====
section
/-! DEFINITION. The flags: RS, EN and BACKLIGHT as bits of the wire byte (10_state.md R20, 30_encoding.md R58 to R60), and the
STATUS byte with the encodings of its fields (R17, R31). -/

namespace Sys2Proof.Machine

/-- `BL = 0x08` (R59). -/
def flagBL : Byte := 0x08

/-- `EN = 0x04` (R59). -/
def flagEN : Byte := 0x04

/-- `RS = 0x02` (R59), present when the register select is 1. -/
def flagRS (rs : Bool) : Byte := if rs then 0x02 else 0x00

/-- The strobe byte of a nibble: the nibble in bits 7:4, BL, EN and RS (R60). -/
def strobe (n : Nibble) (rs : Bool) : Byte := (n.setWidth 8 <<< 4) ||| flagBL ||| flagEN ||| flagRS rs

/-- The latch byte: BL and RS alone; EN and the nibble bits are 0 (R60, 90_conflicts.md C1). -/
def latch (rs : Bool) : Byte := flagBL ||| flagRS rs

/-- The 34 bytes of R61: the strobe bytes for RS = 0 and RS = 1, then the two latch bytes. -/
def wireBytes : List Byte :=
  (List.range 16).map (fun n => BitVec.ofNat 8 (16 * n + 0x0C))
  ++ (List.range 16).map (fun n => BitVec.ofNat 8 (16 * n + 0x0E))
  ++ [0x08, 0x0A]

/-- Wire bits 7:4, the nibble on the controller's data lines (R58). -/
def wireNibble (b : Byte) : Nibble := b.extractLsb' 4 4

/-- Wire bit 2, EN (R58). -/
def wireEN (b : Byte) : Bool := b.getLsbD 2

/-- The 2-bit code of a phase (R17). -/
def Phase.code : Phase → BitVec 2
  | .uninitialized => 0b00
  | .eightBitTransition => 0b01
  | .fourBitMode => 0b10
  | .ready => 0b11

/-- The 3-bit code of a sequencer state (R21). -/
def Seq.code : Seq → BitVec 3
  | .idle => 0
  | .issue => 1
  | .await => 2
  | .delay => 3
  | .setph => 4
  | .respond => 5

/-- `STATUS = {0b0000, 0b1, FAILED, PHASE[1:0]}`, a view of two registers (R31). -/
def State.statusByte (s : State) : Byte :=
  (0b0000 : BitVec 4) ++ (0b1 : BitVec 1) ++ BitVec.ofBool s.failed ++ s.phase.code

end Sys2Proof.Machine
end

