-- ==== Sys2Proof/Machine/Operands.lean ====
section
/-! DEFINITION. Operand assembly (30_encoding.md R66): the nibbles of a byte and the register select of an operation; and the
response word with its codes (R69 to R72). -/

namespace Sys2Proof.Machine

/-- The high nibble `b[7:4]` (R66). -/
def hiNibble (b : Byte) : Nibble := b.extractLsb' 4 4

/-- The low nibble `b[3:0]` (R66). -/
def loNibble (b : Byte) : Nibble := b.extractLsb' 0 4

/-- `rs = OP[0]` for a write operation (R66). -/
def rsOfOp (op : BitVec 2) : Bool := op.getLsbD 0

/-- The response codes (R70). -/
inductive Code where
  | ok
  | busError
  | notReady
  | badState
  | failed
  | illegalOp
  deriving DecidableEq, Repr

/-- `CODE`, bits 15:12 of a response (R70). -/
def Code.bits : Code → BitVec 4
  | .ok => 0x0
  | .busError => 0x1
  | .notReady => 0x2
  | .badState => 0x3
  | .failed => 0x4
  | .illegalOp => 0x5

/-- `resp(code, kind, info) = {code, kind, 0b00, info}` (R72). -/
def respWord (code : Code) (kind : BitVec 2) (info : Byte) : Word :=
  code.bits ++ kind ++ (0b00 : BitVec 2) ++ info

end Sys2Proof.Machine
end

