-- ==== Sys2Proof/Machine/Actions.lean ====
section
/-! DEFINITION. Action lists (00_scope.md R13): SEND_NIBBLE (40_transport.md R86), SEND_BYTE (41_driver.md R92), and the lists
of WRITE_COMMAND, WRITE_DATA and INIT (R96, R98, 42_init.md R104). -/

namespace Sys2Proof.Machine

/-- One action of an operation (R13). -/
inductive Action where
  /-- `W(b)`: one bus write of byte `b`. -/
  | write (b : Byte)
  /-- `D(d)`: a delay of `d` cycles. -/
  | delay (d : Nat)
  /-- `P(p)`: set the phase to `p`. -/
  | phase (p : Phase)
  deriving DecidableEq, Repr

/-- SEND_NIBBLE: strobe, strobe hold, latch, settle (R86). -/
def sendNibble (p : Params) (n : Nibble) (rs : Bool) : List Action :=
  [.write (strobe n rs), .delay p.dStrobe, .write (latch rs), .delay p.dSettle]

/-- SEND_BYTE: the high nibble, then the low nibble (R92). -/
def sendByte (p : Params) (b : Byte) (rs : Bool) : List Action :=
  sendNibble p (hiNibble b) rs ++ sendNibble p (loNibble b) rs

/-- One raw `0x3` nibble of the bring-up and the init wait on top of its settle delay (R104, R107). -/
def initNibble (p : Params) (wait : Nat) : List Action := sendNibble p 0x3 false ++ [Action.delay wait]

/-- The Uninitialized part of INIT: three `0x3` nibbles with their waits (R102, R104). -/
def convergenceActions (p : Params) : List Action :=
  initNibble p p.dInit1 ++ initNibble p p.dInit2 ++ initNibble p p.dInit3

/-- The EightBitTransition part of INIT: the `0x2` nibble (R102, R104). -/
def fourBitActions (p : Params) : List Action := sendNibble p 0x2 false

/-- The FourBitMode part of INIT: the four configuration bytes with RS = 0 (R102, R104). -/
def configurationActions (p : Params) : List Action :=
  sendByte p p.cfgFunctionSet false ++ sendByte p p.cfgDisplayControl false
  ++ sendByte p p.cfgClear false ++ sendByte p p.cfgEntryMode false

/-- The list of INIT (R104). -/
def initActions (p : Params) : List Action :=
  convergenceActions p ++ [Action.phase .eightBitTransition]
  ++ fourBitActions p ++ [Action.phase .fourBitMode]
  ++ configurationActions p ++ [Action.phase .ready]

/-- `OP` of INIT (R22). -/
def opInit : BitVec 2 := 1

/-- `OP` of WRITE_COMMAND (R22). -/
def opWriteCommand : BitVec 2 := 2

/-- `OP` of WRITE_DATA (R22). -/
def opWriteData : BitVec 2 := 3

/-- `actions(OP, DBYTE)` (R75). `OP = 0` is STATUS, which "has no action list". -/
def actions (p : Params) (op : BitVec 2) (dbyte : Byte) : List Action :=
  if op = 0 then []
  else if op = opInit then initActions p
  else sendByte p dbyte (rsOfOp op)

/-- The action list of the current operation, a fixed function of `OP`, `DBYTE` and the parameters (R55). -/
def State.actionList (s : State) : List Action := actions s.params s.op s.dbyte

/-- The bytes an action list writes, in order: its trace when every write succeeds (R14). -/
def writtenBytes : List Action → List Byte
  | [] => []
  | .write b :: rest => b :: writtenBytes rest
  | .delay _ :: rest => writtenBytes rest
  | .phase _ :: rest => writtenBytes rest

/-- The phase an action list leaves when it starts in phase `start`: the last `P(p)` of it, or `start` (R108). -/
def phaseAfter (start : Phase) : List Action → Phase
  | [] => start
  | .write _ :: rest => phaseAfter start rest
  | .delay _ :: rest => phaseAfter start rest
  | .phase p :: rest => phaseAfter p rest

/-- The fewest cycles an action takes: 2 for `W` (R78), `max(d, 1)` for `D(d)` (R81), 1 for `P` (R83). -/
def Action.minCycles : Action → Nat
  | .write _ => 2
  | .delay d => max d 1
  | .phase _ => 1

/-- The fewest cycles an action list takes. -/
def minCycles (l : List Action) : Nat := (l.map Action.minCycles).sum

end Sys2Proof.Machine
end

