-- ==== Sys2Proof/Machine/Controller.lean ====
section
/-! DEFINITION. The environment behind the bus: the expander's output register (60_exceptions.md R143) and the reference model
of the LCD controller's interface state (42_init.md R114). No register of the block depends on it (R36). -/

namespace Sys2Proof.Machine

/-- `x[3:1] = 0b001`: the nibble is the high nibble of a function set (R114). -/
def isFunctionSet (x : Nibble) : Bool := x.extractLsb' 1 3 == 0b001

/-- Where a function set leaves the controller: `x[0]` is DL, 1 selects 8-bit mode (R114). -/
def afterFunctionSet (x : Nibble) : Lcd := if x.getLsbD 0 then .e8 else .f4h

/-- `latch(state, v)` of R114: "each strobe and latch pair" updates the state by the nibble it presents, or by the one held. -/
def latchNibble : Lcd → Nibble → Lcd
  | .e8, v => if isFunctionSet v then afterFunctionSet v else .e8
  | .f4h, v => .f4l v
  | .f4l h, _ => if isFunctionSet h then afterFunctionSet h else .f4h

/-- The expander's outputs part-way from the byte `old` to the byte `new`: those in `m` have changed (R47, U20). -/
def settle (m old new : Byte) : Byte := (old &&& ~~~m) ||| (new &&& m)

/-- What the controller sees when the outputs go from `old` to `new`: at the falling edge of EN it latches `v`, the strobe byte's
nibble, whatever the nibble lines hold by then (R114, R164; 93_implementation_defined.md U20). -/
def observe (old new : Byte) (v : Nibble) (l : Lcd) : Lcd :=
  if wireEN old && !wireEN new then latchNibble l v else l

/-- The strobed nibble once the expander has taken the byte `b`: a strobe byte, one with EN, brings its own (R60). -/
def strobedAfter (b : Byte) (v : Nibble) : Nibble := if wireEN b then wireNibble b else v

/-- The expander's outputs go to `out`. -/
def State.outputsTo (s : State) (out : Byte) : State :=
  { s with expander := out, lcd := observe s.expander out s.strobed s.lcd }

/-- The byte of the current write is on the expander's outputs, all eight of them (R15, R42; log entry 9). -/
def State.delivered (s : State) : State :=
  { s.outputsTo s.outb with strobed := strobedAfter s.outb s.strobed }

/-- An edge at which a write stays in flight: any of the expander's outputs may change at it, in any order, to the new byte's
(R37, R47; log entries 9 and 23). -/
def State.inFlight (s : State) : State :=
  s.outputsTo (settle (Config.outputsChanged s.edge) s.expander s.outb)

/-- A write that failed, or was abandoned by reset, may or may not have reached the expander: the LCD side becomes unknown
(R135, R150, R151; log entry 10). The spec does not say when such a byte reaches the expander: the model's choice is at this edge
or never, so the LCD side then holds until the next write (log entry 22). -/
def State.lcdUnknown (s : State) : State :=
  { s with
    expander := Config.freeExpander s.edge, strobed := Config.freeNibble s.edge, lcd := Config.freeLcd s.edge }

end Sys2Proof.Machine
end

