-- ==== Sys2Proof/Machine/Ports.lean ====
section
/-! DEFINITION. The ports (10_state.md R33 to R35): the outputs as functions of the registers and of `rst`, and the inputs
sampled at the next edge. -/

namespace Sys2Proof.Machine

/-- The output ports (R33). -/
structure Outputs where
  reqReady    : Bool
  respValid   : Bool
  respWord    : Word
  busReqValid : Bool
  busReqAddr  : DevAddr
  busReqData  : Byte
  stPhase     : BitVec 2
  stFailed    : Bool
  stBusy      : Bool
  deriving DecidableEq, Repr

/-- The outputs during a cycle with the given `rst` (R35). -/
def State.outputs (s : State) (rst : Bool) : Outputs where
  reqReady    := !rst && s.seq == .idle
  respValid   := !rst && s.seq == .respond
  respWord    := s.resp
  busReqValid := !rst && s.seq == .issue
  busReqAddr  := s.params.devAddr
  busReqData  := s.outb
  stPhase     := s.phase.code
  stFailed    := s.failed
  stBusy      := s.seq != .idle

/-- The input ports `k` edges after the next one: the scheduled ones, or any (log entry 5). -/
def State.pinsAt (s : State) (k : Nat) : Pins := s.inputs.getD k (Config.freePins (s.edge + k))

/-- The input ports at the next edge. -/
def State.pins (s : State) : Pins := s.pinsAt 0

/-- A rising edge of `clk` as the environment sees it: the inputs of the edge are used up. -/
def State.clocked (s : State) : State := { s with inputs := s.inputs.tail, edge := s.edge + 1 }

/-- Inputs with the request word `w` presented and `rst = 0`. -/
def presenting (p : Pins) (w : Word) : Pins := { p with rst := false, reqValid := true, reqWord := w }

/-- The request word the bits `w` of a table row stand for: the bits above `nbits` are 0 and the word has 16. -/
def tableRequestWord (nbits w : Nat) : Word := BitVec.ofNat 16 (w % 2 ^ nbits)

end Sys2Proof.Machine
end

