-- ==== Sys2Proof/Machine/Ops.lean ====
section
/-! DEFINITION. The shared operations: answering a request (43_system.md R121), starting an operation and going on in its
action list (40_transport.md R77), the abort of a bus error and the return from it (60_exceptions.md R132, R136), and reset
(70_reset_and_hazards.md R147). -/

namespace Sys2Proof.Machine

/-- What a meaning answers. -/
abbrev Out := Host.Outcome State Fault Refusal

/-- `respond(code, st)`: the response carries the STATUS byte, and only `RESP` and `SEQ` change (R121, R122). -/
def State.respond (s : State) (code : Code) : State :=
  { s with resp := respWord code 0b00 s.statusByte, seq := .respond }

/-- The end of an operation: an OK response with the number of writes (R77). -/
def State.finish (s : State) : State :=
  { s with resp := respWord .ok 0b00 s.wcnt, seq := .respond }

/-- The value a `DCNT_W`-bit register holds after `DCNT <- d` (R25). -/
def loadDelay (p : Params) (d : Nat) : Nat := d % 2 ^ p.dcntW

/-- Starting an action (the three cases of R77). -/
def State.begin (s : State) : Action → State
  | .write b => { s with outb := b, seq := .issue }
  | .delay d => { s with dcnt := loadDelay s.params d, seq := .delay }
  | .phase _ => { s with seq := .setph }

/-- `enter(i)`: action `i` of the current list, or the end of the operation (R77). -/
def enter (s : State) (i : Nat) : Out :=
  if i = s.actionList.length then .next s.finish
  else
    match s.actionList[i]? with
    | some a => .next (s.begin a)
    | none => .fault .actionIndexPastEnd

/-- `advance()`: `ACT <- ACT + 1` and `enter(ACT + 1)` (R77). -/
def advance (s : State) : Out := enter { s with act := s.act + 1 } (s.act.toNat + 1)

/-- The registers an accepted operation loads (R121). -/
def State.accepted (s : State) (op : BitVec 2) (data : Byte) : State :=
  { s with op := op, dbyte := data, act := 0, wcnt := 0 }

/-- Starting an operation: the last case of `accept` (R121). -/
def start (s : State) (op : BitVec 2) (data : Byte) : Out := enter (s.accepted op data) 0

/-- A request is looked at only while `SEQ = IDLE`; presented at any other time it is not accepted and has no effect
(R34, R85, R121). -/
def whenIdle (s : State) (answer : Out) : Out := if s.seq = .idle then answer else .next s

/-- The answer to a word that is no request, before any other check (R121, R126, R127). -/
def rejectIllegal (s : State) : Out := whenIdle s (.next (s.respond .illegalOp))

/-- `abort(k)`: the block's trap entry. `FAILED` is set, the response carries the error kind and `WCNT`, and nothing else of
the block changes (R132); what reached the LCD is unknown (R135). That no byte reaches it after this edge is the model's choice
(log entry 22). -/
def abort (s : State) (kind : BitVec 2) : Out :=
  .next { s.lcdUnknown with failed := true, resp := respWord .busError kind s.wcnt, seq := .respond }

/-- The host takes the response and the block goes back to IDLE: the only return, also from an abort (R123, R136). -/
def State.responseTaken (s : State) : State :=
  { s with seq := .idle, respTrace := ⟨s.edge, s.resp⟩ :: s.respTrace }

/-- An edge with `rst = 1`: every register takes its reset value (R38, R147). The parameters, the inputs to come and what has
been observed are not registers of the block; the LCD is unknown after it (R151). That a write in flight here (R150) reaches the
LCD at this edge or never is the model's choice (log entry 22). -/
def State.resetEdge (s : State) : State :=
  { State.resetWith s.params with
    inputs := s.inputs, busTrace := s.busTrace, respTrace := s.respTrace, edge := s.edge
    expander := Config.freeExpander s.edge, strobed := Config.freeNibble s.edge, lcd := Config.freeLcd s.edge }

end Sys2Proof.Machine
end

