-- ==== Sys2Proof/Machine/Bringup.lean ====
section
/-! DEFINITION. INIT (42_init.md R104), at the edge that accepts it; the sequencer then performs its action list. -/

namespace Sys2Proof.Machine

/-- INIT: rejected with FAILED or BAD_STATE, else started (R104, R121). `DBYTE` takes the word's zero DATA. -/
def execInit (s : State) : Out :=
  whenIdle s <|
    if s.failed then .next (s.respond .failed)
    else if s.phase ≠ .uninitialized then .next (s.respond .badState)
    else start s opInit 0x00

end Sys2Proof.Machine
end

