-- ==== Sys2Proof/Machine/Driver.lean ====
section
/-! DEFINITION. WRITE_COMMAND and WRITE_DATA (41_driver.md R96, R98), at the edge that accepts them; the sequencer then
performs the action list. -/

namespace Sys2Proof.Machine

/-- The checks both writes share: FAILED, then NOT_READY, then the start (R96, R98, R121). -/
def acceptWrite (op : BitVec 2) (data : Byte) (s : State) : Out :=
  whenIdle s <|
    if s.failed then .next (s.respond .failed)
    else if s.phase ≠ .ready then .next (s.respond .notReady)
    else start s op data

/-- WRITE_COMMAND (R96). -/
def execWriteCommand (data : Byte) (s : State) : Out := acceptWrite opWriteCommand data s

/-- WRITE_DATA (R98). -/
def execWriteData (data : Byte) (s : State) : Out := acceptWrite opWriteData data s

end Sys2Proof.Machine
end

