-- ==== Sys2Proof/Machine/System.lean ====
section
/-! DEFINITION. STATUS (43_system.md R124). -/

namespace Sys2Proof.Machine

/-- STATUS: "accepted in every phase and whether `FAILED` is 0 or 1"; it answers OK with the STATUS byte (R124). -/
def execStatus (s : State) : Out := whenIdle s (.next (s.respond .ok))

end Sys2Proof.Machine
end

