-- ==== Sys2Proof/Machine/Dispatch.lean ====
section
/-! DEFINITION. The meaning of a request at the edge that presents it (43_system.md R121), one arm per constructor. -/

namespace Sys2Proof.Machine

def exec (i : Instr) (s : State) : Host.Outcome State Fault Refusal :=
  match i with
  | .status => Sys2Proof.Machine.execStatus s
  | .init => Sys2Proof.Machine.execInit s
  | .writeCommand data => Sys2Proof.Machine.execWriteCommand data s
  | .writeData data => Sys2Proof.Machine.execWriteData data s

end Sys2Proof.Machine
end

