-- ==== Sys2Proof/Machine/Sequencer.lean ====
section
/-! DEFINITION. The arms of the sequencer's step for the states other than IDLE (40_transport.md R76 to R83). Each takes the
inputs of the edge and the state it finds them in. -/

namespace Sys2Proof.Machine

/-- ISSUE: the transport takes the write when it is ready (R78). The write is in flight whether it is or not (R37). -/
def issueEdge (p : Pins) (s : State) : Out :=
  if p.busReqReady then
    .next { s.inFlight with seq := .await, busTrace := ⟨s.edge, s.params.devAddr, s.outb⟩ :: s.busTrace }
  else .next s.inFlight

/-- AWAIT: the outcome of the write, OK or an abort (R76, R78); until it comes the write is in flight (R37), and with an OK the
expander has taken the byte at this edge at the latest (R42, log entry 9). -/
def awaitEdge (p : Pins) (s : State) : Out :=
  if p.busRespValid then
    if p.busRespErr = 0b00 then advance { s.delivered with wcnt := s.wcnt + 1 }
    else abort s p.busRespErr
  else .next s.inFlight

/-- DELAY: one cycle of `D(d)` (R76, R81). -/
def delayEdge (s : State) : Out :=
  if s.dcnt ≤ 1 then advance s else .next { s with dcnt := s.dcnt - 1 }

/-- SETPH: `PHASE <- p` for the current action `P(p)` (R76, R83). -/
def setPhaseEdge (s : State) : Out :=
  match s.actionList[s.act.toNat]? with
  | some (.phase p) => advance { s with phase := p }
  | _ => .fault .noPhaseAction

/-- RESPOND: the host takes the response when it is ready (R76). -/
def respondEdge (p : Pins) (s : State) : Out :=
  if p.respReady then .next s.responseTaken else .next s

end Sys2Proof.Machine
end

