-- ==== Sys2Proof/Machine/Step.lean ====
section
/-! DEFINITION. One rising edge of `clk` (40_transport.md R76), and how a table row's request is put before it. -/

namespace Sys2Proof.Machine

/-- `accept(w)`: the word is decoded, then answered or its operation started (R121). -/
def accept (w : Word) (s : State) : Host.Outcome State Fault Refusal :=
  match decode w with
  | .legal i => exec i s
  | .illegal _ => rejectIllegal s

/-- One rising edge of `clk`. Reset comes before everything else (R152); otherwise exactly one arm applies, by `SEQ` (R76). -/
def step (s : State) : Host.Outcome State Fault Refusal :=
  if s.pins.rst then .next s.clocked.resetEdge
  else
    match s.seq with
    | .idle => if s.pins.reqValid then accept s.pins.reqWord s.clocked else .next s.clocked
    | .issue => issueEdge s.pins s.clocked
    | .await => awaitEdge s.pins s.clocked
    | .delay => delayEdge s.clocked
    | .setph => setPhaseEdge s.clocked
    | .respond => respondEdge s.pins s.clocked

/-- The state in which the next edge accepts the request with the bits `w` of a table row: the block is in IDLE and the host
presents the word at that edge, with `rst = 0` (log entry 7). -/
def State.withFetchWord (s : State) (nbits w : Nat) : State :=
  { s with seq := .idle, inputs := presenting s.pins (tableRequestWord nbits w) :: s.inputs.tail }

end Sys2Proof.Machine
end

