-- ==== Sys2Proof/Source.lean ====
section
/-! DEFINITION. A line of the spec's assembler notation (30_encoding.md R73, R74). -/

namespace Sys2Proof

/-- An 8-bit immediate as it is written: "in hexadecimal, decimal or as a character literal" (R73). -/
inductive Imm where
  | number (n : Nat)
  | character (c : Char)
  deriving DecidableEq, Repr

/-- One source line: the mnemonics and `.word` of R73, the pseudo-instructions of R74. -/
inductive Source where
  | status
  | init
  | writeCommand (imm : Imm)
  | writeData (imm : Imm)
  | word (imm : Nat)
  | writeStr (chars : List Char)
  | clear
  | home
  /-- That `<a>` may be a character literal is the model's choice: R73 gives one for `<imm8>` (log entry 18). -/
  | setDdram (a : Imm)
  deriving DecidableEq, Repr

end Sys2Proof
end

