-- ==== Sys2Proof/WellFormed.lean ====
section
/-! DEFINITION. The checks on what is given to the model: a request, an assembler line, a parameter set. -/

namespace Sys2Proof

/-- A request carries no operand or one byte (R63), and `Byte` holds nothing else: the type is the whole check
(log entry 17). -/
def Instr.wellFormed : Instr → Bool
  | .status => true
  | .init => true
  | .writeCommand _ => true
  | .writeData _ => true

/-- R73: "An immediate outside 0..255 is an assembly error", and a character literal "means its ASCII code", which only an
ASCII character has. -/
def Imm.wellFormed : Imm → Bool
  | .number n => decide (n ≤ 255)
  | .character c => decide (c.toNat < 128)

/-- R73, R74: what the assembler accepts. -/
def Source.wellFormed : Source → Bool
  | .status => true
  | .init => true
  | .writeCommand imm => imm.wellFormed
  | .writeData imm => imm.wellFormed
  | .word imm => decide (imm ≤ 0xFFFF)
  | .writeStr chars => chars.all fun c => decide (c.toNat < 128)
  | .clear => true
  | .home => true
  | .setDdram a => a.wellFormed

/-- `cycles / F_CLK ≥ part / whole` seconds at `F_CLK = num / den` hertz, multiplied out. -/
def lastsAtLeast (num den cycles part whole : Nat) : Bool := decide (part * num ≤ cycles * den * whole)

/-- R8 as a check, for a clock of `num / den` hertz; `Params.LegalAt` says it for every real clock (log entry 3). -/
def Params.wellFormed (num den : Nat) (p : Params) : Bool :=
  decide (0 < num) && decide (0 < den) && decide p.Sized
  && lastsAtLeast num den p.dStrobe 1 1000 && lastsAtLeast num den p.dSettle 5 1000
  && lastsAtLeast num den p.dInit1 45 10000 && lastsAtLeast num den p.dInit2 5 1000
  && lastsAtLeast num den p.dInit3 1 1000

end Sys2Proof
end

