-- ==== Sys2Proof/Machine/Assembler.lean ====
section
/-! DEFINITION. The assembler of 30_encoding.md R73 and R74: the request words of a source line. -/

namespace Sys2Proof.Machine

/-- The value of an immediate; a character literal means its ASCII code (R73). -/
def immValue : Imm → Byte
  | .number n => BitVec.ofNat 8 n
  | .character c => BitVec.ofNat 8 c.toNat

/-- The words of a line that the assembler accepts (R73, R74). `SET_DDRAM` takes `a[6:0]`; of 128 to 255, and of a
character literal, by the model's choice (log entry 18). -/
def sourceWords : Source → List Word
  | .status => [encode .status]
  | .init => [encode .init]
  | .writeCommand imm => [encode (.writeCommand (immValue imm))]
  | .writeData imm => [encode (.writeData (immValue imm))]
  | .word imm => [BitVec.ofNat 16 imm]
  | .writeStr chars => chars.map fun c => encode (.writeData (immValue (.character c)))
  | .clear => [encode (.writeCommand 0x01)]
  | .home => [encode (.writeCommand 0x02)]
  | .setDdram a => [encode (.writeCommand (0x80 ||| (immValue a &&& 0x7F)))]

/-- Assembling a line: its words, or an assembly error (R73). -/
def assemble (l : Source) : Option (List Word) := if l.wellFormed then some (sourceWords l) else none

/-- Assembling a program: one error spoils it. -/
def assembleProgram : List Source → Option (List Word)
  | [] => some []
  | l :: rest =>
    match assemble l, assembleProgram rest with
    | some ws, some more => some (ws ++ more)
    | _, _ => none

end Sys2Proof.Machine
end

