-- ==== Sys2Proof/Safety.lean ====
section
/-! DEFINITION. The terms claims use: runs of several edges, a duty of the host (70_reset_and_hazards.md R155),
what a running operation's registers say, the invariant of the machine, and how much work an operation has left. -/

namespace Sys2Proof.Machine

/-- `n` rising edges, stopping at the first fault or refusal. -/
def runSteps : Nat → State → Out
  | 0, s => .next s
  | n + 1, s =>
    match step s with
    | .next t => runSteps n t
    | .fault r => .fault r
    | .refused r => .refused r

/-- The state after `n` edges at which nothing but the clock happened. -/
def State.elapsed (s : State) (n : Nat) : State := { s with inputs := s.inputs.drop n, edge := s.edge + n }

/-- No reset in the next `n` edges. -/
def State.NoReset (s : State) (n : Nat) : Prop := ∀ k, k < n → (s.pinsAt k).rst = false

/-- Nothing holds the block up at this edge: no reset, a transport that is ready if the block is in ISSUE and answers OK if it is in
AWAIT, as in the "immediate environment" of 95_test_vectors.md. In the other states the transport's ports are free, so it can
meet R156: one pulse for one accepted write. The host's side is free. -/
def State.immediate (s : State) : Bool :=
  !s.pins.rst && (s.seq != .issue || s.pins.busReqReady)
  && (s.seq != .await || s.pins.busRespValid && s.pins.busRespErr == 0b00)

/-- Nothing holds the block up at the next `n` edges of its run. -/
def State.Immediate (s : State) (n : Nat) : Prop := ∀ k, k < n → ∀ t, runSteps k s = .next t → t.immediate = true

/-- A transport that keeps R156 and is slow, at the next `n` edges of the run: without a reset, it accepts a write that is presented and
answers an accepted one after at most `w` edges of waiting, and answers OK. -/
def State.Served (s : State) (w n : Nat) : Prop :=
  ∀ k, k < n → ∀ t, runSteps k s = .next t →
    t.pins.rst = false
    ∧ (t.seq = .await → t.pins.busRespValid = true → t.pins.busRespErr = 0b00)
    ∧ (t.seq = .issue → ∃ j, j ≤ w ∧ (t.pinsAt j).busReqReady = true)
    ∧ (t.seq = .await → ∃ j, j ≤ w ∧ (t.pinsAt j).busRespValid = true)

/-- R155: a request presented and not accepted at this edge is still presented, with the same word, at the next. -/
def State.HostHolds (s : State) : Prop :=
  s.pins.reqValid = true → s.seq ≠ .idle → (s.pinsAt 1).reqValid = true ∧ (s.pinsAt 1).reqWord = s.pins.reqWord

/-- An action list is being performed (R85). -/
def Seq.running : Seq → Bool
  | .idle => false
  | .issue => true
  | .await => true
  | .delay => true
  | .setph => true
  | .respond => false

/-- The phase in which an operation starts (R96, R98, R104). -/
def startPhase (op : BitVec 2) : Phase := if op = opInit then .uninitialized else .ready

/-- The bytes of the current operation that the transport has accepted: those answered with OK and, in AWAIT, the one
outstanding (R26, R51). -/
def State.issued (s : State) : List Byte :=
  ((s.busTrace.take (s.wcnt.toNat + if s.seq = .await then 1 else 0)).map BusWrite.data).reverse

/-- The registers say that action `a` is being performed. -/
def State.Performs (s : State) : Action → Prop
  | .write b => (s.seq = .issue ∨ s.seq = .await) ∧ s.outb = b
  | .delay d => s.seq = .delay ∧ 1 ≤ s.dcnt ∧ s.dcnt ≤ d
  | .phase _ => s.seq = .setph

/-- The registers of a running operation agree with its action list: the actions before `ACT` are done, in order, and no
other (R24, R26, R51, R75, R108). -/
structure State.Progress (s : State) : Prop where
  notFailed : s.failed = false
  isOp      : s.op ≠ 0
  current   : ∃ a, s.actionList[s.act.toNat]? = some a ∧ s.Performs a
  counted   : s.wcnt.toNat = (writtenBytes (s.actionList.take s.act.toNat)).length
  inPhase   : s.phase = phaseAfter (startPhase s.op) (s.actionList.take s.act.toNat)
  inOrder   : s.issued =
    writtenBytes (s.actionList.take s.act.toNat) ++ (if s.seq = .await then [s.outb] else [])

/-- A response word as R69 to R71 lay it out: one of the six codes, bits 9:8 zero, and an error kind exactly for
BUS_ERROR. -/
def responseWellFormed (w : Word) : Bool :=
  decide ((w.extractLsb' 12 4).toNat ≤ 5) && w.extractLsb' 8 2 == 0b00
  && ((w.extractLsb' 10 2 != 0b00) == (w.extractLsb' 12 4 == 0x1))

/-- A bus write as R49 and R61 allow it: to `DEV_ADDR`, and one of the 34 wire bytes. -/
def BusWrite.allowed (p : Params) (w : BusWrite) : Prop := w.addr = p.devAddr ∧ w.data ∈ wireBytes

/-- The invariant of the machine: every state that a run from reset reaches has it, and every step keeps it. -/
structure State.Inv (s : State) : Prop where
  legal     : s.params.Legal
  dcntFits  : s.dcnt < 2 ^ s.params.dcntW
  progress  : s.seq.running = true → s.Progress
  settled   : s.seq.running = false → s.failed = false → s.phase = .uninitialized ∨ s.phase = .ready
  response  : responseWellFormed s.resp = true
  busWrites : ∀ w ∈ s.busTrace, w.allowed s.params

/-- The fewest edges the running operation still needs to reach RESPOND (R78, R81, R83). -/
def State.work (s : State) : Nat :=
  match s.seq with
  | .idle => 0
  | .issue => 2 + minCycles (s.actionList.drop (s.act.toNat + 1))
  | .await => 1 + minCycles (s.actionList.drop (s.act.toNat + 1))
  | .delay => max s.dcnt 1 + minCycles (s.actionList.drop (s.act.toNat + 1))
  | .setph => 1 + minCycles (s.actionList.drop (s.act.toNat + 1))
  | .respond => 0

/-- Two states with the same block and the same inputs to come: they may differ in the LCD side and in what has been
observed. -/
def State.SameBlock (s t : State) : Prop :=
  s.params = t.params ∧ s.phase = t.phase ∧ s.failed = t.failed ∧ s.seq = t.seq ∧ s.op = t.op ∧ s.dbyte = t.dbyte
  ∧ s.act = t.act ∧ s.dcnt = t.dcnt ∧ s.wcnt = t.wcnt ∧ s.outb = t.outb ∧ s.resp = t.resp
  ∧ s.inputs = t.inputs ∧ s.edge = t.edge

/-- The command byte is no function set with DL = 1 (R115, R162; 92_eei_decisions.md D32). -/
def keepsFourBitMode (b : Byte) : Bool := !(b.extractLsb' 5 3 == 0b001 && b.getLsbD 4)

end Sys2Proof.Machine
end

