-- ==== Sys2Proof/Certificates/Slice0/Obligations.lean ====
section
/-! DEFINITION. The statements for the provers, from the numbered rules of spec/. -/

open Sys2Proof Sys2Proof.Machine

/-! ## Encodings -/

/-- R65: the decoder, read off the number of the word: `OP = w / 4096`, `RSV = w / 256 % 16`, `DATA = w % 256`. Any other word
is ILLEGAL. -/
def Obligations.DecoderOfEveryWord : Prop :=
  ∀ w : Word,
    (w.toNat / 256 % 16 ≠ 0 → ∃ why, decode w = .illegal why)
    ∧ (w.toNat / 256 % 16 = 0 → w.toNat / 4096 = 0 → w.toNat % 256 = 0 → decode w = .legal .status)
    ∧ (w.toNat / 256 % 16 = 0 → w.toNat / 4096 = 1 → w.toNat % 256 = 0 → decode w = .legal .init)
    ∧ (w.toNat / 256 % 16 = 0 → w.toNat / 4096 = 2 →
        decode w = .legal (.writeCommand (BitVec.ofNat 8 (w.toNat % 256))))
    ∧ (w.toNat / 256 % 16 = 0 → w.toNat / 4096 = 3 →
        decode w = .legal (.writeData (BitVec.ofNat 8 (w.toNat % 256))))
    ∧ (w.toNat / 4096 ≤ 1 → w.toNat % 256 ≠ 0 → ∃ why, decode w = .illegal why)
    ∧ (4 ≤ w.toNat / 4096 → ∃ why, decode w = .illegal why)

/-- 30_encoding.md R63 to R65: decoding and encoding agree both ways, for every request with every operand byte and for every
word. -/
def Obligations.DecodeAndEncodeAgree : Prop :=
  (∀ i : Instr, i.wellFormed = true → decode (encode i) = .legal i)
  ∧ ∀ (w : Word) (i : Instr), decode w = .legal i → encode i = w

/-- 30_encoding.md R64: a word is a request exactly when it matches a row of the table, the row it matches is the request's own,
and no word matches two rows. -/
def Obligations.RequestsAreTheTableRows : Prop :=
  ∀ w : Word,
    ((∃ i, decode w = .legal i) ↔ ∃ r ∈ opcodeTable, r.matchesWord w = true)
    ∧ (∀ i, decode w = .legal i → i.row ∈ opcodeTable ∧ i.row.matchesWord w = true)
    ∧ ∀ r₁ ∈ opcodeTable, ∀ r₂ ∈ opcodeTable, r₁.matchesWord w = true → r₂.matchesWord w = true → r₁ = r₂

/-- 30_encoding.md R64, R73 and 95_test_vectors.md V10: words written out from the encodings. -/
def Obligations.WordsWrittenOutDecode : Prop :=
  decode (0b0000000000000000 : Word) = .legal .status
  ∧ decode (0b0001000000000000 : Word) = .legal .init
  ∧ decode (0b0010000000101000 : Word) = .legal (.writeCommand 0x28)
  ∧ decode (0b0011000001001000 : Word) = .legal (.writeData 0x48)
  ∧ decode (0x5000 : Word) = .illegal .reservedOpcode
  ∧ decode (0xF0FF : Word) = .illegal .reservedOpcode
  ∧ decode (0x2100 : Word) = .illegal .nonzeroReserved
  ∧ decode (0x0001 : Word) = .illegal .nonzeroOperand
  ∧ decode (0x10FF : Word) = .illegal .nonzeroOperand

/-- 30_encoding.md R73, R74: what each source line assembles to, and which lines are assembly errors. The model's own choices
(log entry 18) are `SET_DDRAM` of 128 to 255 and of a character literal, a character without an ASCII code, and `.word` above
0xFFFF. -/
def Obligations.AssemblerLines : Prop :=
  assemble .status = some [0x0000] ∧ assemble .init = some [0x1000]
  ∧ (∀ n, n ≤ 255 → assemble (.writeCommand (.number n)) = some [0x2000 ||| BitVec.ofNat 16 n]
      ∧ assemble (.writeData (.number n)) = some [0x3000 ||| BitVec.ofNat 16 n])
  ∧ (∀ c : Char, c.toNat < 128 →
      assemble (.writeCommand (.character c)) = some [0x2000 ||| BitVec.ofNat 16 c.toNat]
      ∧ assemble (.writeData (.character c)) = some [0x3000 ||| BitVec.ofNat 16 c.toNat]
      ∧ assemble (.setDdram (.character c)) = assemble (.writeCommand (.number (0x80 + c.toNat))))
  ∧ (∀ n, 255 < n → assemble (.writeCommand (.number n)) = none ∧ assemble (.writeData (.number n)) = none
      ∧ assemble (.setDdram (.number n)) = none)
  ∧ (∀ n, n ≤ 0xFFFF → assemble (.word n) = some [BitVec.ofNat 16 n])
  ∧ (∀ cs, assemble (.writeStr cs) = assembleProgram (cs.map fun c => .writeData (.character c)))
  ∧ assemble .clear = assemble (.writeCommand (.number 0x01))
  ∧ assemble .home = assemble (.writeCommand (.number 0x02))
  ∧ (∀ a, a ≤ 127 → assemble (.setDdram (.number a)) = assemble (.writeCommand (.number (0x80 + a))))
  ∧ (∀ a, 128 ≤ a → a ≤ 255 →
      assemble (.setDdram (.number a)) = assemble (.writeCommand (.number (0x80 + a % 128))))
  ∧ (∀ c : Char, 128 ≤ c.toNat → assemble (.writeCommand (.character c)) = none
      ∧ assemble (.writeData (.character c)) = none ∧ assemble (.setDdram (.character c)) = none)
  ∧ ∀ n, 0xFFFF < n → assemble (.word n) = none

/-- R60: a nibble produces exactly two bytes, its strobe byte and its latch byte, as the masks of R59 and as the fields of R58. -/
def Obligations.StrobeAndLatchBytes : Prop :=
  ∀ (p : Params) (n : Nibble) (rs : Bool),
    writtenBytes (sendNibble p n rs) = [strobe n rs, latch rs]
    ∧ strobe n rs = (n.setWidth 8 <<< 4) ||| 0x08 ||| 0x04 ||| ((BitVec.ofBool rs).setWidth 8 <<< 1)
    ∧ latch rs = 0x08 ||| ((BitVec.ofBool rs).setWidth 8 <<< 1)
    ∧ strobe n rs = n ++ 1#1 ++ 1#1 ++ BitVec.ofBool rs ++ 0#1
    ∧ latch rs = 0#4 ++ 1#1 ++ 0#1 ++ BitVec.ofBool rs ++ 0#1

/-- 30_encoding.md R61: exactly 34 wire bytes. Every byte of every action list is one of them, and each of them is a byte of some
WRITE_COMMAND or WRITE_DATA. -/
def Obligations.EmittedBytesAreThe34 : Prop :=
  wireBytes.length = 34 ∧ wireBytes.Nodup
  ∧ (∀ (p : Params) (op : BitVec 2) (d b : Byte), b ∈ writtenBytes (actions p op d) → b ∈ wireBytes)
  ∧ ∀ (p : Params), ∀ b ∈ wireBytes,
      ∃ d : Byte, b ∈ writtenBytes (actions p opWriteCommand d) ∨ b ∈ writtenBytes (actions p opWriteData d)

/-- 40_transport.md R86, 41_driver.md R92, R93, R96, R98, R101: the lists of the two write operations, action by action, the four
bytes they write and the fewest cycles they take. -/
def Obligations.WriteOperationLists : Prop :=
  ∀ (p : Params) (d : Byte),
    actions p 2 d
      = [.write ((d &&& 0xF0) ||| 0x0C), .delay p.dStrobe, .write 0x08, .delay p.dSettle,
         .write (((d <<< 4) &&& 0xF0) ||| 0x0C), .delay p.dStrobe, .write 0x08, .delay p.dSettle]
    ∧ actions p 3 d
      = [.write ((d &&& 0xF0) ||| 0x0E), .delay p.dStrobe, .write 0x0A, .delay p.dSettle,
         .write (((d <<< 4) &&& 0xF0) ||| 0x0E), .delay p.dStrobe, .write 0x0A, .delay p.dSettle]
    ∧ (actions p 2 d).length = 8 ∧ (actions p 3 d).length = 8
    ∧ writtenBytes (actions p 2 d) = [(d &&& 0xF0) ||| 0x0C, 0x08, ((d <<< 4) &&& 0xF0) ||| 0x0C, 0x08]
    ∧ writtenBytes (actions p 3 d) = [(d &&& 0xF0) ||| 0x0E, 0x0A, ((d <<< 4) &&& 0xF0) ||| 0x0E, 0x0A]
    ∧ minCycles (actions p 2 d) = 8 + 2 * (max p.dStrobe 1 + max p.dSettle 1)
    ∧ minCycles (actions p 3 d) = minCycles (actions p 2 d)

/-- 42_init.md R104, R106, R107, R108, R116: the list of INIT, action by action, whatever `DBYTE` holds: its 54 actions with their
delays, waits and phases in their places, the 24 bytes they write, and the fewest cycles they take. -/
def Obligations.InitList : Prop :=
  ∀ (p : Params) (d : Byte),
    actions p 1 d
      = [.write 0x3C, .delay p.dStrobe, .write 0x08, .delay p.dSettle, .delay p.dInit1,
         .write 0x3C, .delay p.dStrobe, .write 0x08, .delay p.dSettle, .delay p.dInit2,
         .write 0x3C, .delay p.dStrobe, .write 0x08, .delay p.dSettle, .delay p.dInit3,
         .phase .eightBitTransition,
         .write 0x2C, .delay p.dStrobe, .write 0x08, .delay p.dSettle,
         .phase .fourBitMode,
         .write ((p.cfgFunctionSet &&& 0xF0) ||| 0x0C), .delay p.dStrobe, .write 0x08, .delay p.dSettle,
         .write (((p.cfgFunctionSet <<< 4) &&& 0xF0) ||| 0x0C), .delay p.dStrobe, .write 0x08, .delay p.dSettle,
         .write ((p.cfgDisplayControl &&& 0xF0) ||| 0x0C), .delay p.dStrobe, .write 0x08, .delay p.dSettle,
         .write (((p.cfgDisplayControl <<< 4) &&& 0xF0) ||| 0x0C), .delay p.dStrobe, .write 0x08, .delay p.dSettle,
         .write ((p.cfgClear &&& 0xF0) ||| 0x0C), .delay p.dStrobe, .write 0x08, .delay p.dSettle,
         .write (((p.cfgClear <<< 4) &&& 0xF0) ||| 0x0C), .delay p.dStrobe, .write 0x08, .delay p.dSettle,
         .write ((p.cfgEntryMode &&& 0xF0) ||| 0x0C), .delay p.dStrobe, .write 0x08, .delay p.dSettle,
         .write (((p.cfgEntryMode <<< 4) &&& 0xF0) ||| 0x0C), .delay p.dStrobe, .write 0x08, .delay p.dSettle,
         .phase .ready]
    ∧ (actions p 1 d).length = 54
    ∧ writtenBytes (actions p 1 d)
      = [0x3C, 0x08, 0x3C, 0x08, 0x3C, 0x08, 0x2C, 0x08,
         (p.cfgFunctionSet &&& 0xF0) ||| 0x0C, 0x08, ((p.cfgFunctionSet <<< 4) &&& 0xF0) ||| 0x0C, 0x08,
         (p.cfgDisplayControl &&& 0xF0) ||| 0x0C, 0x08, ((p.cfgDisplayControl <<< 4) &&& 0xF0) ||| 0x0C, 0x08,
         (p.cfgClear &&& 0xF0) ||| 0x0C, 0x08, ((p.cfgClear <<< 4) &&& 0xF0) ||| 0x0C, 0x08,
         (p.cfgEntryMode &&& 0xF0) ||| 0x0C, 0x08, ((p.cfgEntryMode <<< 4) &&& 0xF0) ||| 0x0C, 0x08]
    ∧ (p.Legal → minCycles (actions p 1 d)
        = 48 + 12 * (p.dStrobe + p.dSettle) + p.dInit1 + p.dInit2 + p.dInit3 + 3)

/-- 10_state.md R31: the STATUS byte: bit 3 is 1, bit 2 is FAILED, bits 1:0 are PHASE, and 0x08 after reset. -/
def Obligations.StatusByteLayout : Prop :=
  ∀ s : State,
    s.statusByte.extractLsb' 0 2 = s.phase.code ∧ s.statusByte.getLsbD 2 = s.failed
    ∧ s.statusByte.getLsbD 3 = true ∧ s.statusByte.extractLsb' 4 4 = 0
    ∧ State.reset.statusByte = 0x08

/-- 30_encoding.md R69, R70, R72: the fields of a response word, and the number of each code. -/
def Obligations.ResponseWordLayout : Prop :=
  ∀ (c : Code) (kind : BitVec 2) (info : Byte),
    (respWord c kind info).extractLsb' 12 4 = c.bits ∧ (respWord c kind info).extractLsb' 10 2 = kind
    ∧ (respWord c kind info).extractLsb' 8 2 = 0b00 ∧ (respWord c kind info).extractLsb' 0 8 = info
    ∧ Code.ok.bits = 0 ∧ Code.busError.bits = 1 ∧ Code.notReady.bits = 2 ∧ Code.badState.bits = 3
    ∧ Code.failed.bits = 4 ∧ Code.illegalOp.bits = 5

/-! ## Requests at the accepting edge -/

/-- 43_system.md R121: when the word at the request port decodes to `i`, the edge that accepts it is `exec i`; around it the
edge only uses up its inputs and counts. That the expander and the controller are kept is the model's choice (log entry 22).
-/
def Obligations.StepRunsTheDecodedRequest : Prop :=
  ∀ (s : State) (i : Instr),
    s.seq = .idle → s.pins.rst = false → s.pins.reqValid = true → decode s.pins.reqWord = .legal i →
    step s = exec i { s with inputs := s.inputs.tail, edge := s.edge + 1 }

/-- The model's own loading convention (log entry 7): after `withFetchWord` the next edge accepts exactly the request with
those bits, and only `SEQ` and the inputs of that edge are set. That the expander and the controller are kept is its choice
too (log entry 22). -/
def Obligations.WithFetchWordRunsTheRequest : Prop :=
  ∀ (s : State) (w : Word) (i : Instr),
    decode w = .legal i →
    step (s.withFetchWord 16 w.toNat) = exec i { s with seq := .idle, inputs := s.inputs.tail, edge := s.edge + 1 }

/-- 43_system.md R121: what the edge that accepts a word does, in the order of precedence. `s.statusByte` is the STATUS byte before
the edge. That no late byte changes the expander and the controller is the model's choice (log entry 22). -/
def Obligations.AcceptFollowsThePrecedence : Prop :=
  ∀ (s t : State) (w : Word),
    s.seq = .idle → s.pins.rst = false → s.pins.reqValid = true → s.pins.reqWord = w →
    t = { s with inputs := s.inputs.tail, edge := s.edge + 1 } →
    (∀ why, decode w = .illegal why →
      step s = .next { t with resp := respWord .illegalOp 0 s.statusByte, seq := .respond })
    ∧ (decode w = .legal .status → step s = .next { t with resp := respWord .ok 0 s.statusByte, seq := .respond })
    ∧ (∀ i, decode w = .legal i → i ≠ .status → s.failed = true →
        step s = .next { t with resp := respWord .failed 0 s.statusByte, seq := .respond })
    ∧ (decode w = .legal .init → s.failed = false → s.phase ≠ .uninitialized →
        step s = .next { t with resp := respWord .badState 0 s.statusByte, seq := .respond })
    ∧ (∀ d, decode w = .legal (.writeCommand d) ∨ decode w = .legal (.writeData d) →
        s.failed = false → s.phase ≠ .ready →
        step s = .next { t with resp := respWord .notReady 0 s.statusByte, seq := .respond })
    ∧ (decode w = .legal .init → s.failed = false → s.phase = .uninitialized →
        step s = enter { t with op := w.extractLsb' 12 2, dbyte := w.extractLsb' 0 8, act := 0, wcnt := 0 } 0)
    ∧ (∀ d, decode w = .legal (.writeCommand d) ∨ decode w = .legal (.writeData d) →
        s.failed = false → s.phase = .ready →
        step s = enter { t with op := w.extractLsb' 12 2, dbyte := w.extractLsb' 0 8, act := 0, wcnt := 0 } 0)

/-- 43_system.md R126, R127: a reserved `OP`, a nonzero `RSV`, or a nonzero `DATA` with STATUS or INIT is answered ILLEGAL_OP
in every phase and also while `FAILED = 1`, and nothing but `RESP` and `SEQ` changes. That the expander and the controller are
kept is the model's choice (log entry 22). -/
def Obligations.IllegalWordsAreAnswered : Prop :=
  ∀ (s : State) (w : Word),
    s.seq = .idle → s.pins.rst = false → s.pins.reqValid = true → s.pins.reqWord = w →
    (4 ≤ w.toNat / 4096 ∨ w.toNat / 256 % 16 ≠ 0 ∨ (w.toNat / 4096 ≤ 1 ∧ w.toNat % 256 ≠ 0)) →
    step s = .next { s with
      inputs := s.inputs.tail, edge := s.edge + 1
      resp := 0x5000 ||| s.statusByte.setWidth 16, seq := .respond }

/-- 43_system.md R124: STATUS completes in every phase and whether `FAILED` is 0 or 1: OK with the STATUS byte, and no state
but `RESP` and `SEQ` is written. That the expander and the controller are kept is the model's choice (log entry 22). -/
def Obligations.StatusCompletesInEveryState : Prop :=
  ∀ s : State, s.seq = .idle →
    exec .status s = .next { s with resp := s.statusByte.setWidth 16, seq := .respond }

/-- 42_init.md R104, R106, R116: INIT completes. Accepted in Uninitialized with `FAILED = 0`, it starts with the first strobe,
and with a transport that is ready when a write is presented and answers OK at the next edge (its ports are free at every
other edge, so it can keep R156) it is in RESPOND after its fewest cycles, with `PHASE = Ready`, the response `0x0018` and its
24 bytes on the bus, in order, to `DEV_ADDR`. That the start keeps the expander and the controller is the model's choice (log
entry 22). -/
def Obligations.InitRunsToCompletion : Prop :=
  ∀ (s t : State) (n : Nat),
    s.params.Legal → s.seq = .idle → s.failed = false → s.phase = .uninitialized →
    n = 48 + 12 * (s.params.dStrobe + s.params.dSettle) + s.params.dInit1 + s.params.dInit2 + s.params.dInit3 + 3 →
    t = { s with op := 1, dbyte := 0, act := 0, wcnt := 0, outb := 0x3C, seq := .issue } → t.Immediate n →
    exec .init s = .next t
    ∧ ∃ u, runSteps n t = .next u
      ∧ u.seq = .respond ∧ u.resp = 0x0018 ∧ u.phase = .ready ∧ u.failed = false
      ∧ u.op = 1 ∧ u.act = 54 ∧ u.wcnt = 24 ∧ u.params = s.params ∧ u.edge = s.edge + n
      ∧ u.busTrace.drop 24 = s.busTrace
      ∧ (∀ w ∈ u.busTrace.take 24, w.addr = s.params.devAddr)
      ∧ ((u.busTrace.take 24).map BusWrite.data).reverse
        = [0x3C, 0x08, 0x3C, 0x08, 0x3C, 0x08, 0x2C, 0x08,
           (s.params.cfgFunctionSet &&& 0xF0) ||| 0x0C, 0x08,
           ((s.params.cfgFunctionSet <<< 4) &&& 0xF0) ||| 0x0C, 0x08,
           (s.params.cfgDisplayControl &&& 0xF0) ||| 0x0C, 0x08,
           ((s.params.cfgDisplayControl <<< 4) &&& 0xF0) ||| 0x0C, 0x08,
           (s.params.cfgClear &&& 0xF0) ||| 0x0C, 0x08, ((s.params.cfgClear <<< 4) &&& 0xF0) ||| 0x0C, 0x08,
           (s.params.cfgEntryMode &&& 0xF0) ||| 0x0C, 0x08, ((s.params.cfgEntryMode <<< 4) &&& 0xF0) ||| 0x0C, 0x08]

/-- 41_driver.md R96, R93, R101: WRITE_COMMAND completes. Accepted in Ready with `FAILED = 0`, it starts with its first
strobe, and with a transport that is ready when a write is presented and answers OK at the next edge (its ports are free at
every other edge, so it can keep R156) it is in RESPOND after its fewest cycles, with the response `0x0004`, `PHASE` unchanged
and its four bytes on the bus with RS = 0, the high nibble first. That the start keeps the expander and the controller is the
model's choice (log entry 22). -/
def Obligations.WriteCommandRunsToCompletion : Prop :=
  ∀ (s t : State) (d : Byte) (n : Nat),
    s.params.Legal → s.seq = .idle → s.failed = false → s.phase = .ready →
    n = 8 + 2 * (s.params.dStrobe + s.params.dSettle) →
    t = { s with op := 2, dbyte := d, act := 0, wcnt := 0, outb := (d &&& 0xF0) ||| 0x0C, seq := .issue } → t.Immediate n →
    exec (.writeCommand d) s = .next t
    ∧ ∃ u, runSteps n t = .next u
      ∧ u.seq = .respond ∧ u.resp = 0x0004 ∧ u.phase = .ready ∧ u.failed = false
      ∧ u.op = 2 ∧ u.dbyte = d ∧ u.act = 8 ∧ u.wcnt = 4 ∧ u.params = s.params ∧ u.edge = s.edge + n
      ∧ u.busTrace.drop 4 = s.busTrace
      ∧ (∀ w ∈ u.busTrace.take 4, w.addr = s.params.devAddr)
      ∧ ((u.busTrace.take 4).map BusWrite.data).reverse
        = [(d &&& 0xF0) ||| 0x0C, 0x08, ((d <<< 4) &&& 0xF0) ||| 0x0C, 0x08]

/-- 41_driver.md R98, R93, R101: WRITE_DATA completes, as WRITE_COMMAND does but with RS = 1 in its four bytes. That the start
keeps the expander and the controller is the model's choice (log entry 22). -/
def Obligations.WriteDataRunsToCompletion : Prop :=
  ∀ (s t : State) (d : Byte) (n : Nat),
    s.params.Legal → s.seq = .idle → s.failed = false → s.phase = .ready →
    n = 8 + 2 * (s.params.dStrobe + s.params.dSettle) →
    t = { s with op := 3, dbyte := d, act := 0, wcnt := 0, outb := (d &&& 0xF0) ||| 0x0E, seq := .issue } → t.Immediate n →
    exec (.writeData d) s = .next t
    ∧ ∃ u, runSteps n t = .next u
      ∧ u.seq = .respond ∧ u.resp = 0x0004 ∧ u.phase = .ready ∧ u.failed = false
      ∧ u.op = 3 ∧ u.dbyte = d ∧ u.act = 8 ∧ u.wcnt = 4 ∧ u.params = s.params ∧ u.edge = s.edge + n
      ∧ u.busTrace.drop 4 = s.busTrace
      ∧ (∀ w ∈ u.busTrace.take 4, w.addr = s.params.devAddr)
      ∧ ((u.busTrace.take 4).map BusWrite.data).reverse
        = [(d &&& 0xF0) ||| 0x0E, 0x0A, ((d <<< 4) &&& 0xF0) ||| 0x0E, 0x0A]

/-- 43_system.md R121, 60_exceptions.md R137: no request stops the machine: `exec` answers a next state for every request in every
state. Outside IDLE, where the spec accepts no request, that answer is the model's own (log entry 14). -/
def Obligations.ExecAnswersInEveryState : Prop :=
  ∀ (i : Instr) (s : State), ∃ t, exec i s = .next t

/-- 43_system.md R121, 40_transport.md R77: the frame of every request at its accepting edge. A rejection or STATUS writes
`RESP` and `SEQ`; a start writes `OP`, `DBYTE`, `ACT`, `WCNT`, `OUTB` and `SEQ`; nothing else ever changes, no bus write among
it. That the expander and the controller are kept is the model's choice (log entry 22). -/
def Obligations.ExecFrame : Prop :=
  ∀ (i : Instr) (s t : State), exec i s = .next t →
    t.params = s.params ∧ t.phase = s.phase ∧ t.failed = s.failed ∧ t.dcnt = s.dcnt ∧ t.inputs = s.inputs
    ∧ t.expander = s.expander ∧ t.strobed = s.strobed ∧ t.lcd = s.lcd ∧ t.busTrace = s.busTrace ∧ t.respTrace = s.respTrace ∧ t.edge = s.edge
    ∧ (t.seq ≠ .issue → t.op = s.op ∧ t.dbyte = s.dbyte ∧ t.act = s.act ∧ t.wcnt = s.wcnt ∧ t.outb = s.outb)
    ∧ (t.seq ≠ .respond → t.resp = s.resp)

/-- 43_system.md R122: a request that is answered at once, STATUS or a rejection of any kind, changes only `RESP` and `SEQ`. In particular it
does not set `FAILED` and makes no bus traffic. That no late byte changes the expander and the controller is the model's choice (log
entry 22). -/
def Obligations.AnswersChangeOnlyRespAndSeq : Prop :=
  ∀ (s t : State), s.seq = .idle → s.pins.rst = false → s.pins.reqValid = true → step s = .next t → t.seq = .respond →
    t = { s with inputs := s.inputs.tail, edge := s.edge + 1, resp := t.resp, seq := .respond }

/-- 10_state.md R34, 40_transport.md R85: while the block is not in IDLE the request port has no effect: a request is neither taken nor
does it change what the edge does. That `exec`, a function of every state, answers the state unchanged there is the model's own
(log entry 14). -/
def Obligations.BusyRequestHasNoEffect : Prop :=
  (∀ (s : State) (p : Pins) (rest : List Pins) (v : Bool) (w : Word), s.seq ≠ .idle →
    step { s with inputs := { p with reqValid := v, reqWord := w } :: rest } = step { s with inputs := p :: rest })
  ∧ ∀ (i : Instr) (s : State), s.seq ≠ .idle → exec i s = .next s

/-- 40_transport.md R85, 70_reset_and_hazards.md R155: a request that the host holds while the block is busy is neither taken
nor lost: when the block is back in IDLE the same word is still at the port, and the edge accepts it. That the expander and
the controller are kept is the model's choice (log entry 22). -/
def Obligations.HeldRequestIsAccepted : Prop :=
  ∀ (n : Nat) (s u : State),
    s.pins.reqValid = true → s.NoReset (n + 1) → runSteps n s = .next u →
    (∀ k, k < n → ∃ v, runSteps k s = .next v ∧ v.seq ≠ .idle ∧ v.HostHolds) → u.seq = .idle →
    u.pins.reqValid = true ∧ u.pins.reqWord = s.pins.reqWord
    ∧ step u = accept s.pins.reqWord { u with inputs := u.inputs.tail, edge := u.edge + 1 }

/-! ## The sequencer -/

/-- 40_transport.md R76: the arms of the step at an edge with `rst = 0`, by `SEQ`; `t` is the state with the inputs of the
edge used up. An arm whose condition does not hold keeps every register; while a write is in flight any of the expander's
outputs may change to its byte's, and at an OK all of them have: that is the model's own reading of R37 and R42 (log entry 9).
That no byte of an earlier write arrives late is the model's choice (log entry 22). So is that an output changes at most once
in a write (log entry 23). -/
def Obligations.SequencerArms : Prop :=
  ∀ (s t : State), s.pins.rst = false → t = { s with inputs := s.inputs.tail, edge := s.edge + 1 } →
    (s.seq = .idle → s.pins.reqValid = true → step s = accept s.pins.reqWord t)
    ∧ (s.seq = .idle → s.pins.reqValid = false → step s = .next t)
    ∧ (s.seq = .issue → s.pins.busReqReady = true →
        step s = .next { t.inFlight with
          seq := .await, busTrace := ⟨t.edge, s.params.devAddr, s.outb⟩ :: s.busTrace })
    ∧ (s.seq = .issue → s.pins.busReqReady = false → step s = .next t.inFlight)
    ∧ (s.seq = .await → s.pins.busRespValid = true → s.pins.busRespErr = 0b00 →
        step s = advance { t with
          wcnt := s.wcnt + 1, expander := s.outb, lcd := observe s.expander s.outb s.strobed s.lcd
          strobed := strobedAfter s.outb s.strobed })
    ∧ (s.seq = .await → s.pins.busRespValid = true → s.pins.busRespErr ≠ 0b00 → step s = abort t s.pins.busRespErr)
    ∧ (s.seq = .await → s.pins.busRespValid = false → step s = .next t.inFlight)
    ∧ (s.seq = .delay → s.dcnt ≤ 1 → step s = advance t)
    ∧ (s.seq = .delay → 1 < s.dcnt → step s = .next { t with dcnt := s.dcnt - 1 })
    ∧ (∀ p, s.seq = .setph → s.actionList[s.act.toNat]? = some (.phase p) → step s = advance { t with phase := p })
    ∧ (s.seq = .respond → s.pins.respReady = true →
        step s = .next { t with seq := .idle, respTrace := ⟨t.edge, s.resp⟩ :: s.respTrace })
    ∧ (s.seq = .respond → s.pins.respReady = false → step s = .next t)

/-- 40_transport.md R77: `advance()` increments `ACT` and starts the next action of the list, or ends the operation with an OK response that
carries `WCNT`. -/
def Obligations.AdvanceEntersTheNextAction : Prop :=
  ∀ (s : State) (i : Nat), i = s.act.toNat + 1 →
    (i = s.actionList.length →
      advance s = .next { s with act := s.act + 1, resp := respWord .ok 0b00 s.wcnt, seq := .respond })
    ∧ (∀ b, s.actionList[i]? = some (.write b) → advance s = .next { s with act := s.act + 1, outb := b, seq := .issue })
    ∧ (∀ d, s.actionList[i]? = some (.delay d) →
        d < 2 ^ s.params.dcntW → advance s = .next { s with act := s.act + 1, dcnt := d, seq := .delay })
    ∧ (∀ p, s.actionList[i]? = some (.phase p) → advance s = .next { s with act := s.act + 1, seq := .setph })

/-- 40_transport.md R76, R80, 70_reset_and_hazards.md R155: a wait never ends by itself. For as many edges as the transport
does not accept, does not answer, the host does not take the response or presents no request, every register keeps its value.
While a write is in flight any of the expander's outputs, in any order, may change to its byte's, and nothing else
(10_state.md R37, 20_memory.md R47, log entry 9); no byte of an earlier write arrives late (log entry 22), and an output
changes at most once (log entry 23). -/
def Obligations.WaitsKeepEveryRegister : Prop :=
  ∀ (n : Nat) (s : State), s.NoReset n →
    (s.seq = .respond ∧ (∀ k, k < n → (s.pinsAt k).respReady = false)
        ∨ s.seq = .idle ∧ (∀ k, k < n → (s.pinsAt k).reqValid = false) →
      runSteps n s = .next { s with inputs := s.inputs.drop n, edge := s.edge + n })
    ∧ (s.seq = .issue ∧ (∀ k, k < n → (s.pinsAt k).busReqReady = false)
        ∨ s.seq = .await ∧ (∀ k, k < n → (s.pinsAt k).busRespValid = false) →
      ∃ m : Byte, runSteps n s = .next { s with
          inputs := s.inputs.drop n, edge := s.edge + n
          expander := settle m s.expander s.outb
          lcd := observe s.expander (settle m s.expander s.outb) s.strobed s.lcd })

/-- 40_transport.md R81: with `DCNT = d` a delay takes exactly `max(d, 1)` edges: before the last one the block is in DELAY
and only `DCNT` counts down, and the last one advances. That the expander and the controller are kept throughout is the
model's choice: a byte answered with OK is there at that edge, and none arrives later (log entries 9 and 22). -/
def Obligations.DelayTakesExactlyItsCycles : Prop :=
  ∀ (s : State), s.seq = .delay → s.NoReset (max s.dcnt 1) →
    (∀ j, j < max s.dcnt 1 →
      runSteps j s = .next { s with inputs := s.inputs.drop j, edge := s.edge + j, dcnt := s.dcnt - j })
    ∧ runSteps (max s.dcnt 1) s = advance { s with
        inputs := s.inputs.drop (max s.dcnt 1), edge := s.edge + max s.dcnt 1, dcnt := min s.dcnt 1 }

/-- 40_transport.md R82: an OK sampled at an edge, followed in the list by `D(d)` and `W(b)`: no bus request is presented in the `d`
cycles after that edge, and the next write is presented in the cycle after them. -/
def Obligations.GapBetweenWritesIsTheDelay : Prop :=
  ∀ (s : State) (d : Nat) (b : Byte),
    s.seq = .await → s.pins.busRespValid = true → s.pins.busRespErr = 0b00 →
    s.actionList[s.act.toNat + 1]? = some (.delay d) → s.actionList[s.act.toNat + 2]? = some (.write b) →
    1 ≤ d → d < 2 ^ s.params.dcntW → s.NoReset (d + 1) →
    (∀ j, 1 ≤ j → j ≤ d → ∃ t, runSteps j s = .next t ∧ ∀ rst, (t.outputs rst).busReqValid = false)
    ∧ ∃ t, runSteps (d + 1) s = .next t ∧ (t.outputs false).busReqValid = true
        ∧ (t.outputs false).busReqAddr = s.params.devAddr ∧ (t.outputs false).busReqData = b

/-- 40_transport.md R83: `P(p)` takes one edge in SETPH: it writes `PHASE <- p`, advances (`advance()` of R77, which leaves
SETPH) and does not touch the bus. That no late byte changes the expander and the controller is the model's choice (log
entries 9 and 22). -/
def Obligations.PhaseActionTakesOneEdge : Prop :=
  ∀ (s : State) (p : Phase),
    s.Inv → s.pins.rst = false → s.seq = .setph → s.actionList[s.act.toNat]? = some (.phase p) →
    step s = advance { s with inputs := s.inputs.tail, edge := s.edge + 1, phase := p }
    ∧ ∃ t, step s = .next t ∧ t.phase = p ∧ t.act = s.act + 1 ∧ t.seq ≠ .setph
      ∧ t.busTrace = s.busTrace ∧ t.wcnt = s.wcnt ∧ t.expander = s.expander ∧ t.strobed = s.strobed ∧ t.lcd = s.lcd

/-- 10_state.md R34: a handshake completes at an edge whose valid and ready are both 1, and until then the block holds what it
presents; a request that is not accepted has no effect. The entries on the two traces are the model's own observation (log
entry 12). That an edge without a request keeps the expander and the controller is the model's choice (log entry 22). -/
def Obligations.HandshakesCompleteAndHold : Prop :=
  ∀ (s t : State), s.pins.rst = false → step s = .next t →
    ((s.outputs false).busReqValid = true → s.pins.busReqReady = false →
      (t.outputs false).busReqValid = true ∧ (t.outputs false).busReqAddr = (s.outputs false).busReqAddr
      ∧ (t.outputs false).busReqData = (s.outputs false).busReqData)
    ∧ ((s.outputs false).busReqValid = true → s.pins.busReqReady = true →
      t.seq = .await
      ∧ t.busTrace = ⟨t.edge, (s.outputs false).busReqAddr, (s.outputs false).busReqData⟩ :: s.busTrace)
    ∧ ((s.outputs false).respValid = true → s.pins.respReady = false →
      (t.outputs false).respValid = true ∧ (t.outputs false).respWord = (s.outputs false).respWord)
    ∧ ((s.outputs false).respValid = true → s.pins.respReady = true →
      t.seq = .idle ∧ t.respTrace = ⟨t.edge, (s.outputs false).respWord⟩ :: s.respTrace)
    ∧ ((s.outputs false).reqReady = true → s.pins.reqValid = true →
      accept s.pins.reqWord { s with inputs := s.inputs.tail, edge := s.edge + 1 } = .next t
      ∧ (t.outputs false).reqReady = false)
    ∧ ((s.outputs false).reqReady = true → s.pins.reqValid = false →
      t = { s with inputs := s.inputs.tail, edge := s.edge + 1 })
    ∧ ((s.outputs false).reqReady = false → ∀ (p : Pins) (rest : List Pins) (v : Bool) (w : Word),
      step { s with inputs := { p with reqValid := v, reqWord := w } :: rest } = step { s with inputs := p :: rest })

/-- 40_transport.md R79: `bus_resp_valid` and `bus_resp_err` are sampled only in AWAIT: at any other edge, the one of the request
handshake among them, they change nothing. -/
def Obligations.StrayResponseIsIgnored : Prop :=
  ∀ (s : State) (p : Pins) (rest : List Pins) (v : Bool) (e : BitVec 2), s.seq ≠ .await →
    step { s with inputs := { p with busRespValid := v, busRespErr := e } :: rest } = step { s with inputs := p :: rest }

/-- R35: the outputs are functions of the registers and of `rst` alone. -/
def Obligations.OutputsFollowTheRegisters : Prop :=
  ∀ (s : State) (rst : Bool),
    ((s.outputs rst).reqReady = true ↔ rst = false ∧ s.seq = .idle)
    ∧ ((s.outputs rst).respValid = true ↔ rst = false ∧ s.seq = .respond)
    ∧ (s.outputs rst).respWord = s.resp
    ∧ ((s.outputs rst).busReqValid = true ↔ rst = false ∧ s.seq = .issue)
    ∧ (s.outputs rst).busReqAddr = s.params.devAddr ∧ (s.outputs rst).busReqData = s.outb
    ∧ (s.outputs rst).stPhase = s.phase.code ∧ (s.outputs rst).stFailed = s.failed
    ∧ ((s.outputs rst).stBusy = true ↔ s.seq ≠ .idle)
    ∧ ∀ ps, ({ s with inputs := ps } : State).outputs rst = s.outputs rst

/-! ## Errors, reset -/

/-- R132: the abort: `FAILED` is set, the response carries the error kind and the index of the failing write, no other register of
the block changes, and no later action of the list is performed: for as long as there is no reset, no write, no phase. -/
def Obligations.AbortLatchesTheFailure : Prop :=
  ∀ (s : State) (kind : BitVec 2),
    s.seq = .await → s.pins.rst = false → s.pins.busRespValid = true → s.pins.busRespErr = kind → kind ≠ 0b00 →
    ∃ t, step s = .next t
      ∧ t.failed = true ∧ t.resp = respWord .busError kind s.wcnt ∧ t.seq = .respond
      ∧ t.params = s.params ∧ t.phase = s.phase ∧ t.act = s.act ∧ t.op = s.op ∧ t.dbyte = s.dbyte ∧ t.outb = s.outb
      ∧ t.dcnt = s.dcnt ∧ t.wcnt = s.wcnt ∧ t.busTrace = s.busTrace ∧ t.respTrace = s.respTrace
      ∧ ∀ n, t.NoReset n → ∃ u, runSteps n t = .next u ∧ u.busTrace = s.busTrace ∧ u.phase = s.phase ∧ u.act = s.act
          ∧ u.seq.running = false

/-- 10_state.md R19: `FAILED` is set by a bus error and by nothing else, only reset clears it, and while it is set every INIT,
WRITE_COMMAND and WRITE_DATA is rejected without bus traffic and STATUS still works. That the expander and the controller are
kept is the model's choice (log entry 22). -/
def Obligations.FailedIsSticky : Prop :=
  State.reset.failed = false
  ∧ (∀ (s t : State), step s = .next t →
      (s.pins.rst = true → t.failed = false)
      ∧ (s.pins.rst = false →
        (t.failed = true ↔
          s.failed = true ∨ (s.seq = .await ∧ s.pins.busRespValid = true ∧ s.pins.busRespErr ≠ 0b00))))
  ∧ ∀ (s : State), s.seq = .idle → s.failed = true →
      (∀ i, i ≠ .status →
        exec i s = .next { s with resp := respWord .failed 0b00 s.statusByte, seq := .respond })
      ∧ exec .status s = .next { s with resp := respWord .ok 0b00 s.statusByte, seq := .respond }

/-- 60_exceptions.md R137, R138: a failed block that is not performing an operation writes nothing to the bus and starts nothing,
whatever is requested and however long, until reset. That the expander and the controller hold too, so that the byte of the failed
write does not arrive late, is the model's choice (log entry 22). -/
def Obligations.FailedBlockWritesNothing : Prop :=
  ∀ (n : Nat) (s : State), s.failed = true → s.seq.running = false → s.NoReset n →
    ∃ t, runSteps n s = .next t ∧ t.failed = true ∧ t.seq.running = false ∧ t.busTrace = s.busTrace
      ∧ t.phase = s.phase ∧ t.op = s.op ∧ t.dbyte = s.dbyte ∧ t.act = s.act ∧ t.dcnt = s.dcnt ∧ t.wcnt = s.wcnt
      ∧ t.outb = s.outb ∧ t.expander = s.expander ∧ t.strobed = s.strobed ∧ t.lcd = s.lcd

/-- R18: `PHASE` moves forward one step at a time, only by a `P` action of INIT; reset writes Uninitialized. -/
def Obligations.PhaseOnlyMovesForward : Prop :=
  ∀ (s t : State), s.Inv → step s = .next t →
    (s.pins.rst = true → t.phase = .uninitialized)
    ∧ (s.pins.rst = false → t.phase ≠ s.phase →
        s.seq = .setph ∧ s.op = opInit ∧ s.actionList[s.act.toNat]? = some (.phase t.phase)
        ∧ t.phase.code.toNat = s.phase.code.toNat + 1)

/-- 42_init.md R110: the phase a failed INIT leaves, by the index of the failing write. -/
def Obligations.PhaseAfterAFailedInit : Prop :=
  ∀ (s t : State), s.Inv → s.op = opInit → s.seq = .await → s.pins.rst = false → s.pins.busRespValid = true →
    s.pins.busRespErr ≠ 0b00 → step s = .next t →
    t.failed = true
    ∧ (s.wcnt.toNat ≤ 5 → t.phase = .uninitialized)
    ∧ (6 ≤ s.wcnt.toNat → s.wcnt.toNat ≤ 7 → t.phase = .eightBitTransition)
    ∧ (8 ≤ s.wcnt.toNat → s.wcnt.toNat ≤ 23 ∧ t.phase = .fourBitMode)

/-- 70_reset_and_hazards.md R147, R152: an edge with `rst = 1` gives every register its reset value whatever else happens at it and
completes no handshake. That the parameters and the two traces are kept is the model's own (log entries 12 and 13). -/
def Obligations.ResetEdgeResetsEveryRegister : Prop :=
  ∀ (s : State), s.pins.rst = true →
    (∃ t, step s = .next t
      ∧ t.phase = .uninitialized ∧ t.failed = false ∧ t.seq = .idle ∧ t.op = 0 ∧ t.dbyte = 0x00 ∧ t.act = 0
      ∧ t.dcnt = 0 ∧ t.wcnt = 0 ∧ t.outb = 0x00 ∧ t.resp = 0x0000
      ∧ t.params = s.params ∧ t.busTrace = s.busTrace ∧ t.respTrace = s.respTrace)
    ∧ (s.outputs true).reqReady = false ∧ (s.outputs true).respValid = false ∧ (s.outputs true).busReqValid = false
    ∧ ∀ p rest, p.rst = true → step { s with inputs := p :: rest }
        = step { s with inputs := { p with
            reqValid := s.pins.reqValid, reqWord := s.pins.reqWord, respReady := s.pins.respReady
            busReqReady := s.pins.busReqReady, busRespValid := s.pins.busRespValid
            busRespErr := s.pins.busRespErr } :: rest }

/-- R38: the values of every register in the reset state and after any edge with `rst = 1`, and the outputs and the STATUS byte
derived from them. -/
def Obligations.ResetStateValues : Prop :=
  ∀ t : State, t = State.reset ∨ (∃ s : State, s.pins.rst = true ∧ step s = .next t) →
    t.phase = .uninitialized ∧ t.failed = false ∧ t.seq = .idle ∧ t.op = 0 ∧ t.dbyte = 0x00 ∧ t.act = 0
    ∧ t.dcnt = 0 ∧ t.wcnt = 0 ∧ t.outb = 0x00 ∧ t.resp = 0x0000
    ∧ (t.outputs false).reqReady = true ∧ (t.outputs false).respValid = false
    ∧ (t.outputs false).busReqValid = false ∧ (t.outputs false).stPhase = 0
    ∧ (t.outputs false).stFailed = false ∧ (t.outputs false).stBusy = false
    ∧ t.statusByte = 0x08

/-- 43_system.md R125, 95_test_vectors.md V11, and 42_init.md R111: between operations `PHASE` is Uninitialized or Ready
unless the block has failed; so STATUS answers one of six words, and BAD_STATE is answered only in Ready. That the expander
and the controller are kept is the model's choice (log entry 22). -/
def Obligations.AnswersBetweenOperations : Prop :=
  ∀ (s : State), s.Inv → s.seq = .idle →
    (∃ t, exec .status s = .next t
      ∧ t.resp ∈ ([0x0008, 0x000B, 0x000C, 0x000D, 0x000E, 0x000F] : List Word))
    ∧ (s.failed = false → s.phase ≠ .uninitialized →
        s.phase = .ready ∧ exec .init s = .next { s with resp := 0x300B, seq := .respond })

/-! ## The whole machine -/

/-- The state right after reset has the invariant of the machine. -/
def Obligations.ResetHasTheInvariant : Prop := State.reset.Inv

/-- 10_state.md R24, R26, 20_memory.md R51, 30_encoding.md R61, R69 to R71, 42_init.md R108: every step keeps the invariant: a running
operation has performed exactly the actions before `ACT`, in order; `WCNT` counts its writes; `PHASE` is where its list has
put it; `DCNT` fits its register; a response has one of the forms of R69 to R71; every bus write goes to `DEV_ADDR` with one of
the 34 bytes. -/
def Obligations.StepKeepsTheInvariant : Prop :=
  ∀ s t : State, s.Inv → step s = .next t → t.Inv

/-- 40_transport.md R76: exactly one arm applies, so from a state with the invariant the machine never stops: no fault and no refusal
in any number of edges, whatever the environment does. -/
def Obligations.RunsNeverStop : Prop :=
  ∀ (n : Nat) (s : State), s.Inv → ∃ t, runSteps n s = .next t ∧ t.Inv

/-- 20_memory.md R51, R52, 41_driver.md R94, 60_exceptions.md R132, R135: how an operation ends. The edge at which it stops running
either ends it with OK, all its writes issued in list order, each answered OK, and `PHASE = Ready`; or it is a bus error at
write `k`, with the writes 0 to `k` issued in list order, no other, and the response BUS_ERROR with that kind and `k`. -/
def Obligations.OperationOutcome : Prop :=
  ∀ (s t : State),
    s.Inv → s.seq.running = true → s.pins.rst = false → step s = .next t → t.seq.running = false →
    t.seq = .respond ∧ t.op = s.op ∧ t.dbyte = s.dbyte
    ∧ ((t.failed = false ∧ t.phase = .ready ∧ t.act.toNat = s.actionList.length
        ∧ t.wcnt.toNat = (writtenBytes s.actionList).length
        ∧ ((t.busTrace.take t.wcnt.toNat).map BusWrite.data).reverse = writtenBytes s.actionList
        ∧ t.resp = respWord .ok 0b00 t.wcnt)
      ∨ (t.failed = true ∧ s.seq = .await ∧ s.pins.busRespValid = true ∧ s.pins.busRespErr ≠ 0b00
        ∧ s.wcnt.toNat < (writtenBytes s.actionList).length ∧ t.wcnt = s.wcnt
        ∧ ((t.busTrace.take (s.wcnt.toNat + 1)).map BusWrite.data).reverse
            = (writtenBytes s.actionList).take (s.wcnt.toNat + 1)
        ∧ t.resp = respWord .busError s.pins.busRespErr s.wcnt))

/-- 40_transport.md R78, R81, R83, 70_reset_and_hazards.md R166: an edge of a running operation takes at most one cycle off the
fewest it still needs; an edge that waits for the transport takes none, and any other exactly one, whatever the other inputs
are. -/
def Obligations.WorkCountsDown : Prop :=
  ∀ (s : State), s.Inv → s.seq.running = true → s.pins.rst = false →
    (s.seq = .await → s.pins.busRespValid = true → s.pins.busRespErr = 0b00) →
    ∃ t, step s = .next t ∧ t.work ≤ s.work ∧ s.work ≤ t.work + 1
      ∧ ((s.seq = .issue → s.pins.busReqReady = true) → (s.seq = .await → s.pins.busRespValid = true) →
        s.work = t.work + 1)
      ∧ (s.seq = .issue → s.pins.busReqReady = false → t.work = s.work)
      ∧ (s.seq = .await → s.pins.busRespValid = false → t.work = s.work)
      ∧ (t.seq.running = true ∨ t.seq = .respond)

/-- 20_memory.md R52, 40_transport.md R80, R85, 70_reset_and_hazards.md R156, R166: with a transport that keeps its duties, however slow, a
running operation completes: if it accepts and answers after at most `w` edges of waiting, and answers OK, then without a reset the
block is in RESPOND within `w + 1` times the fewest edges left, with `PHASE = Ready`, all the operation's writes made in list
order, and the OK response that counts them. -/
def Obligations.SlowTransportsCompleteToo : Prop :=
  ∀ (w : Nat) (s : State), s.Inv → s.seq.running = true → s.Served w ((w + 1) * s.work) →
    ∃ (m : Nat) (t : State), m ≤ (w + 1) * s.work ∧ runSteps m s = .next t
      ∧ t.seq = .respond ∧ t.failed = false ∧ t.phase = .ready ∧ t.op = s.op ∧ t.dbyte = s.dbyte
      ∧ t.wcnt.toNat = (writtenBytes s.actionList).length ∧ t.resp = respWord .ok 0b00 t.wcnt
      ∧ ((t.busTrace.take t.wcnt.toNat).map BusWrite.data).reverse = writtenBytes s.actionList

/-- 20_memory.md R40, R41, R51: a write reaches the transport only by the handshake in ISSUE, one at a time, always to `DEV_ADDR` and
with the byte in `OUTB`; no write is ever taken back. -/
def Obligations.BusTraceGrowsByTheHandshake : Prop :=
  ∀ (s t : State), step s = .next t →
    t.busTrace = s.busTrace
    ∨ (s.pins.rst = false ∧ s.seq = .issue ∧ s.pins.busReqReady = true ∧ t.seq = .await
      ∧ t.busTrace = ⟨s.edge + 1, s.params.devAddr, s.outb⟩ :: s.busTrace)

/-- 10_state.md R32: no step writes a parameter. -/
def Obligations.ParametersNeverChange : Prop :=
  ∀ (n : Nat) (s t : State), runSteps n s = .next t → t.params = s.params

/-- 00_scope.md R3, 10_state.md R36: the block never learns anything from the LCD side: two states with the same block and the same
inputs, whatever the expander, the controller and the past traces are, step to the same block, have the same outputs, and stop
alike. -/
def Obligations.LcdIsInvisibleToTheBlock : Prop :=
  ∀ (s t : State), s.SameBlock t →
    (∀ rst, s.outputs rst = t.outputs rst)
    ∧ (∀ s', step s = .next s' → ∃ t', step t = .next t' ∧ s'.SameBlock t')
    ∧ (∀ r, step s = .fault r → step t = .fault r)
    ∧ ∀ r, step s = .refused r → step t = .refused r

/-! ## The LCD controller's interface state -/

/-- 42_init.md R114: the update of the controller's interface state, by the number of the nibble `v` or of the held nibble
`h`, and that a strobe byte followed by its latch byte presents the strobe byte's nibble once, whatever the register select,
whatever the expander held before and whichever outputs change first (20_memory.md R47, 70_reset_and_hazards.md R164). That an
output changes at most once in a write, and all have at its OK, is the model's choice (log entries 9 and 23). The reading of a
function set and its DL is the spec's inference: "This reading is [from general knowledge, not in source]". -/
def Obligations.ControllerLatchesEachNibble : Prop :=
  ∀ (v h : Nibble),
    latchNibble .e8 v = (if v.toNat / 2 = 1 then (if v.toNat % 2 = 1 then .e8 else .f4h) else .e8)
    ∧ latchNibble .f4h v = .f4l v
    ∧ latchNibble (.f4l h) v = (if h.toNat / 2 = 1 then (if h.toNat % 2 = 1 then .e8 else .f4h) else .f4h)
    ∧ (∀ (rs : Bool) (e m₁ m₂ : Byte) (u : Nibble) (l : Lcd),
        let onStrobe := observe (settle m₁ e (strobe v rs)) (strobe v rs) u (observe e (settle m₁ e (strobe v rs)) u l)
        let part := settle m₂ (strobe v rs) (latch rs)
        observe part (latch rs) v (observe (strobe v rs) part v onStrobe) = latchNibble l v)
    ∧ ∀ (s : State) (rs : Bool),
        (s.outb = strobe v rs → s.delivered.strobed = v) ∧ (s.outb = latch rs → s.delivered.strobed = s.strobed)

/-- 42_init.md R115: three `0x3` nibbles take the controller to 8-bit mode from every starting state, and a `0x2` takes it then to 4-bit
mode awaiting a fresh instruction. -/
def Obligations.InitNibblesConverge : Prop :=
  ∀ l : Lcd,
    [0x3, 0x3, 0x3].foldl latchNibble l = .e8
    ∧ [0x3, 0x3, 0x3, 0x2].foldl latchNibble l = .f4h

/-- 42_init.md R109, R115: a completed INIT leaves the controller in 4-bit mode awaiting a fresh instruction, whatever it and
the expander were before, provided no configuration byte is a function set with DL = 1. That with an OK the expander has taken
the byte is the model's own reading (log entry 9), that no byte of an earlier write arrives late and that an output changes at
most once in a write its choices (log entries 22 and 23). -/
def Obligations.InitConvergesTheController : Prop :=
  ∀ (s t : State) (n : Nat),
    s.params.Legal → s.seq = .idle → s.failed = false → s.phase = .uninitialized →
    keepsFourBitMode s.params.cfgFunctionSet = true → keepsFourBitMode s.params.cfgDisplayControl = true →
    keepsFourBitMode s.params.cfgClear = true → keepsFourBitMode s.params.cfgEntryMode = true →
    n = 48 + 12 * (s.params.dStrobe + s.params.dSettle) + s.params.dInit1 + s.params.dInit2 + s.params.dInit3 + 3 →
    exec .init s = .next t → t.Immediate n →
    ∃ u, runSteps n t = .next u ∧ u.phase = .ready ∧ u.lcd = .f4h ∧ u.expander = 0x08

/-- 20_memory.md R52, 42_init.md R115: a completed WRITE_COMMAND or WRITE_DATA takes the controller from 4-bit mode awaiting a
fresh instruction back to it, provided the byte is not a function set with DL = 1. That with an OK the expander has taken the
byte is the model's own reading (log entry 9), that no byte of an earlier write arrives late and that an output changes at
most once in a write its choices (log entries 22 and 23). -/
def Obligations.WritesKeepTheFraming : Prop :=
  ∀ (s t : State) (i : Instr) (d : Byte) (n : Nat),
    i = .writeCommand d ∨ i = .writeData d →
    s.params.Legal → s.seq = .idle → s.failed = false → s.phase = .ready → s.lcd = .f4h →
    keepsFourBitMode d = true →
    n = 8 + 2 * (s.params.dStrobe + s.params.dSettle) → exec i s = .next t → t.Immediate n →
    ∃ u, runSteps n t = .next u ∧ u.resp = 0x0004 ∧ u.lcd = .f4h
end

