-- ==== Sys2Proof/Laws/Decode.lean ====
section
/-! SUPPORT. The fields of an encoded request. -/

namespace Sys2Proof

/-- A 16-bit word is its three fields side by side (R63). -/
theorem word_eq_fields (w : Word) : w = opField w ++ rsvField w ++ dataField w := by
  apply BitVec.eq_of_getLsbD_eq
  intro i hi
  simp only [opField, rsvField, dataField, BitVec.getLsbD_append, BitVec.getLsbD_extractLsb']
  by_cases h8 : i < 8
  · simp [h8]
  · by_cases h12 : i < 12
    · have h : i - 8 < 4 := by omega
      have e : 8 + (i - 8) = i := by omega
      simp [h8, h, e]
    · have h : ¬ i - 8 < 4 := by omega
      have h' : i - 8 - 4 < 4 := by omega
      have e : 12 + (i - 8 - 4) = i := by omega
      simp [h8, h, h', e]

/-- A bit of three fields side by side. -/
theorem getLsbD_fields (o r : BitVec 4) (d : Byte) (i : Nat) :
    (o ++ r ++ d : Word).getLsbD i
      = if i < 8 then d.getLsbD i else if i < 12 then r.getLsbD (i - 8) else o.getLsbD (i - 12) := by
  refine (BitVec.getLsbD_append (x := o ++ r) (y := d)).trans ?_
  have high : (o ++ r).getLsbD (i - 8) = if i - 8 < 4 then r.getLsbD (i - 8) else o.getLsbD (i - 8 - 4) :=
    BitVec.getLsbD_append
  rw [high]
  by_cases h8 : i < 8
  · simp [h8]
  · by_cases h12 : i < 12
    · simp [h8, h12, show i - 8 < 4 by omega]
    · simp [h8, h12, show ¬ i - 8 < 4 by omega, show i - 8 - 4 = i - 12 by omega]

theorem opField_append (o r : BitVec 4) (d : Byte) : opField (o ++ r ++ d) = o := by
  apply BitVec.eq_of_getLsbD_eq
  intro i hi
  simp only [opField, BitVec.getLsbD_extractLsb', getLsbD_fields]
  simp [hi, show ¬ 12 + i < 8 by omega, show ¬ 12 + i < 12 by omega]

theorem rsvField_append (o r : BitVec 4) (d : Byte) : rsvField (o ++ r ++ d) = r := by
  apply BitVec.eq_of_getLsbD_eq
  intro i hi
  simp only [rsvField, BitVec.getLsbD_extractLsb', getLsbD_fields]
  simp [hi, show ¬ 8 + i < 8 by omega, show 8 + i < 12 by omega]

theorem dataField_append (o r : BitVec 4) (d : Byte) : dataField (o ++ r ++ d) = d := by
  apply BitVec.eq_of_getLsbD_eq
  intro i hi
  simp only [dataField, BitVec.getLsbD_extractLsb', getLsbD_fields]
  simp [hi]

@[simp] theorem opField_encode (i : Instr) : opField (encode i) = i.opcode := opField_append ..

@[simp] theorem rsvField_encode (i : Instr) : rsvField (encode i) = 0 := rsvField_append ..

@[simp] theorem dataField_encode (i : Instr) : dataField (encode i) = i.operand := dataField_append ..

/-- The fields of a word as the digits of its number (R11, R63). -/
theorem opField_toNat (w : Word) : (opField w).toNat = w.toNat / 4096 := by
  have := w.isLt
  simp only [opField, BitVec.extractLsb'_toNat, Nat.shiftRight_eq_div_pow]
  omega

theorem rsvField_toNat (w : Word) : (rsvField w).toNat = w.toNat / 256 % 16 := by
  simp [rsvField, BitVec.extractLsb'_toNat, Nat.shiftRight_eq_div_pow]

theorem dataField_toNat (w : Word) : (dataField w).toNat = w.toNat % 256 := by
  simp [dataField, BitVec.extractLsb'_toNat]

end Sys2Proof
end

