-- ==== Sys2Proof/Laws/State.lean ====
section
/-! SUPPORT. What each named update of the state leaves in each field. -/

namespace Sys2Proof.Machine

@[simp] theorem State.clocked_params (s : State) : s.clocked.params = s.params := rfl
@[simp] theorem State.clocked_phase (s : State) : s.clocked.phase = s.phase := rfl
@[simp] theorem State.clocked_failed (s : State) : s.clocked.failed = s.failed := rfl
@[simp] theorem State.clocked_seq (s : State) : s.clocked.seq = s.seq := rfl
@[simp] theorem State.clocked_op (s : State) : s.clocked.op = s.op := rfl
@[simp] theorem State.clocked_dbyte (s : State) : s.clocked.dbyte = s.dbyte := rfl
@[simp] theorem State.clocked_act (s : State) : s.clocked.act = s.act := rfl
@[simp] theorem State.clocked_dcnt (s : State) : s.clocked.dcnt = s.dcnt := rfl
@[simp] theorem State.clocked_wcnt (s : State) : s.clocked.wcnt = s.wcnt := rfl
@[simp] theorem State.clocked_outb (s : State) : s.clocked.outb = s.outb := rfl
@[simp] theorem State.clocked_resp (s : State) : s.clocked.resp = s.resp := rfl
@[simp] theorem State.clocked_inputs (s : State) : s.clocked.inputs = s.inputs.tail := rfl
@[simp] theorem State.clocked_expander (s : State) : s.clocked.expander = s.expander := rfl
@[simp] theorem State.clocked_strobed (s : State) : s.clocked.strobed = s.strobed := rfl
@[simp] theorem State.clocked_lcd (s : State) : s.clocked.lcd = s.lcd := rfl
@[simp] theorem State.clocked_busTrace (s : State) : s.clocked.busTrace = s.busTrace := rfl
@[simp] theorem State.clocked_respTrace (s : State) : s.clocked.respTrace = s.respTrace := rfl
@[simp] theorem State.clocked_edge (s : State) : s.clocked.edge = s.edge + 1 := rfl

@[simp] theorem State.respond_params (s : State) (c : Code) : (s.respond c).params = s.params := rfl
@[simp] theorem State.respond_phase (s : State) (c : Code) : (s.respond c).phase = s.phase := rfl
@[simp] theorem State.respond_failed (s : State) (c : Code) : (s.respond c).failed = s.failed := rfl
@[simp] theorem State.respond_seq (s : State) (c : Code) : (s.respond c).seq = .respond := rfl
@[simp] theorem State.respond_op (s : State) (c : Code) : (s.respond c).op = s.op := rfl
@[simp] theorem State.respond_dbyte (s : State) (c : Code) : (s.respond c).dbyte = s.dbyte := rfl
@[simp] theorem State.respond_act (s : State) (c : Code) : (s.respond c).act = s.act := rfl
@[simp] theorem State.respond_dcnt (s : State) (c : Code) : (s.respond c).dcnt = s.dcnt := rfl
@[simp] theorem State.respond_wcnt (s : State) (c : Code) : (s.respond c).wcnt = s.wcnt := rfl
@[simp] theorem State.respond_outb (s : State) (c : Code) : (s.respond c).outb = s.outb := rfl
@[simp] theorem State.respond_resp (s : State) (c : Code) : (s.respond c).resp = respWord c 0b00 s.statusByte := rfl
@[simp] theorem State.respond_inputs (s : State) (c : Code) : (s.respond c).inputs = s.inputs := rfl
@[simp] theorem State.respond_expander (s : State) (c : Code) : (s.respond c).expander = s.expander := rfl
@[simp] theorem State.respond_strobed (s : State) (c : Code) : (s.respond c).strobed = s.strobed := rfl
@[simp] theorem State.respond_lcd (s : State) (c : Code) : (s.respond c).lcd = s.lcd := rfl
@[simp] theorem State.respond_busTrace (s : State) (c : Code) : (s.respond c).busTrace = s.busTrace := rfl
@[simp] theorem State.respond_respTrace (s : State) (c : Code) : (s.respond c).respTrace = s.respTrace := rfl
@[simp] theorem State.respond_edge (s : State) (c : Code) : (s.respond c).edge = s.edge := rfl

@[simp] theorem State.finish_params (s : State) : s.finish.params = s.params := rfl
@[simp] theorem State.finish_phase (s : State) : s.finish.phase = s.phase := rfl
@[simp] theorem State.finish_failed (s : State) : s.finish.failed = s.failed := rfl
@[simp] theorem State.finish_seq (s : State) : s.finish.seq = .respond := rfl
@[simp] theorem State.finish_op (s : State) : s.finish.op = s.op := rfl
@[simp] theorem State.finish_dbyte (s : State) : s.finish.dbyte = s.dbyte := rfl
@[simp] theorem State.finish_act (s : State) : s.finish.act = s.act := rfl
@[simp] theorem State.finish_dcnt (s : State) : s.finish.dcnt = s.dcnt := rfl
@[simp] theorem State.finish_wcnt (s : State) : s.finish.wcnt = s.wcnt := rfl
@[simp] theorem State.finish_outb (s : State) : s.finish.outb = s.outb := rfl
@[simp] theorem State.finish_resp (s : State) : s.finish.resp = respWord .ok 0b00 s.wcnt := rfl
@[simp] theorem State.finish_inputs (s : State) : s.finish.inputs = s.inputs := rfl
@[simp] theorem State.finish_expander (s : State) : s.finish.expander = s.expander := rfl
@[simp] theorem State.finish_strobed (s : State) : s.finish.strobed = s.strobed := rfl
@[simp] theorem State.finish_lcd (s : State) : s.finish.lcd = s.lcd := rfl
@[simp] theorem State.finish_busTrace (s : State) : s.finish.busTrace = s.busTrace := rfl
@[simp] theorem State.finish_respTrace (s : State) : s.finish.respTrace = s.respTrace := rfl
@[simp] theorem State.finish_edge (s : State) : s.finish.edge = s.edge := rfl

@[simp] theorem State.begin_write_params (s : State) (b : Byte) : (s.begin (.write b)).params = s.params := rfl
@[simp] theorem State.begin_write_phase (s : State) (b : Byte) : (s.begin (.write b)).phase = s.phase := rfl
@[simp] theorem State.begin_write_failed (s : State) (b : Byte) : (s.begin (.write b)).failed = s.failed := rfl
@[simp] theorem State.begin_write_seq (s : State) (b : Byte) : (s.begin (.write b)).seq = .issue := rfl
@[simp] theorem State.begin_write_op (s : State) (b : Byte) : (s.begin (.write b)).op = s.op := rfl
@[simp] theorem State.begin_write_dbyte (s : State) (b : Byte) : (s.begin (.write b)).dbyte = s.dbyte := rfl
@[simp] theorem State.begin_write_act (s : State) (b : Byte) : (s.begin (.write b)).act = s.act := rfl
@[simp] theorem State.begin_write_dcnt (s : State) (b : Byte) : (s.begin (.write b)).dcnt = s.dcnt := rfl
@[simp] theorem State.begin_write_wcnt (s : State) (b : Byte) : (s.begin (.write b)).wcnt = s.wcnt := rfl
@[simp] theorem State.begin_write_outb (s : State) (b : Byte) : (s.begin (.write b)).outb = b := rfl
@[simp] theorem State.begin_write_resp (s : State) (b : Byte) : (s.begin (.write b)).resp = s.resp := rfl
@[simp] theorem State.begin_write_inputs (s : State) (b : Byte) : (s.begin (.write b)).inputs = s.inputs := rfl
@[simp] theorem State.begin_write_expander (s : State) (b : Byte) : (s.begin (.write b)).expander = s.expander := rfl
@[simp] theorem State.begin_write_strobed (s : State) (b : Byte) : (s.begin (.write b)).strobed = s.strobed := rfl
@[simp] theorem State.begin_write_lcd (s : State) (b : Byte) : (s.begin (.write b)).lcd = s.lcd := rfl
@[simp] theorem State.begin_write_busTrace (s : State) (b : Byte) : (s.begin (.write b)).busTrace = s.busTrace := rfl
@[simp] theorem State.begin_write_respTrace (s : State) (b : Byte) : (s.begin (.write b)).respTrace = s.respTrace := rfl
@[simp] theorem State.begin_write_edge (s : State) (b : Byte) : (s.begin (.write b)).edge = s.edge := rfl

@[simp] theorem State.begin_delay_params (s : State) (d : Nat) : (s.begin (.delay d)).params = s.params := rfl
@[simp] theorem State.begin_delay_phase (s : State) (d : Nat) : (s.begin (.delay d)).phase = s.phase := rfl
@[simp] theorem State.begin_delay_failed (s : State) (d : Nat) : (s.begin (.delay d)).failed = s.failed := rfl
@[simp] theorem State.begin_delay_seq (s : State) (d : Nat) : (s.begin (.delay d)).seq = .delay := rfl
@[simp] theorem State.begin_delay_op (s : State) (d : Nat) : (s.begin (.delay d)).op = s.op := rfl
@[simp] theorem State.begin_delay_dbyte (s : State) (d : Nat) : (s.begin (.delay d)).dbyte = s.dbyte := rfl
@[simp] theorem State.begin_delay_act (s : State) (d : Nat) : (s.begin (.delay d)).act = s.act := rfl
@[simp] theorem State.begin_delay_dcnt (s : State) (d : Nat) : (s.begin (.delay d)).dcnt = loadDelay s.params d := rfl
@[simp] theorem State.begin_delay_wcnt (s : State) (d : Nat) : (s.begin (.delay d)).wcnt = s.wcnt := rfl
@[simp] theorem State.begin_delay_outb (s : State) (d : Nat) : (s.begin (.delay d)).outb = s.outb := rfl
@[simp] theorem State.begin_delay_resp (s : State) (d : Nat) : (s.begin (.delay d)).resp = s.resp := rfl
@[simp] theorem State.begin_delay_inputs (s : State) (d : Nat) : (s.begin (.delay d)).inputs = s.inputs := rfl
@[simp] theorem State.begin_delay_expander (s : State) (d : Nat) : (s.begin (.delay d)).expander = s.expander := rfl
@[simp] theorem State.begin_delay_strobed (s : State) (d : Nat) : (s.begin (.delay d)).strobed = s.strobed := rfl
@[simp] theorem State.begin_delay_lcd (s : State) (d : Nat) : (s.begin (.delay d)).lcd = s.lcd := rfl
@[simp] theorem State.begin_delay_busTrace (s : State) (d : Nat) : (s.begin (.delay d)).busTrace = s.busTrace := rfl
@[simp] theorem State.begin_delay_respTrace (s : State) (d : Nat) : (s.begin (.delay d)).respTrace = s.respTrace := rfl
@[simp] theorem State.begin_delay_edge (s : State) (d : Nat) : (s.begin (.delay d)).edge = s.edge := rfl

@[simp] theorem State.begin_phase_params (s : State) (p : Phase) : (s.begin (.phase p)).params = s.params := rfl
@[simp] theorem State.begin_phase_phase (s : State) (p : Phase) : (s.begin (.phase p)).phase = s.phase := rfl
@[simp] theorem State.begin_phase_failed (s : State) (p : Phase) : (s.begin (.phase p)).failed = s.failed := rfl
@[simp] theorem State.begin_phase_seq (s : State) (p : Phase) : (s.begin (.phase p)).seq = .setph := rfl
@[simp] theorem State.begin_phase_op (s : State) (p : Phase) : (s.begin (.phase p)).op = s.op := rfl
@[simp] theorem State.begin_phase_dbyte (s : State) (p : Phase) : (s.begin (.phase p)).dbyte = s.dbyte := rfl
@[simp] theorem State.begin_phase_act (s : State) (p : Phase) : (s.begin (.phase p)).act = s.act := rfl
@[simp] theorem State.begin_phase_dcnt (s : State) (p : Phase) : (s.begin (.phase p)).dcnt = s.dcnt := rfl
@[simp] theorem State.begin_phase_wcnt (s : State) (p : Phase) : (s.begin (.phase p)).wcnt = s.wcnt := rfl
@[simp] theorem State.begin_phase_outb (s : State) (p : Phase) : (s.begin (.phase p)).outb = s.outb := rfl
@[simp] theorem State.begin_phase_resp (s : State) (p : Phase) : (s.begin (.phase p)).resp = s.resp := rfl
@[simp] theorem State.begin_phase_inputs (s : State) (p : Phase) : (s.begin (.phase p)).inputs = s.inputs := rfl
@[simp] theorem State.begin_phase_expander (s : State) (p : Phase) : (s.begin (.phase p)).expander = s.expander := rfl
@[simp] theorem State.begin_phase_strobed (s : State) (p : Phase) : (s.begin (.phase p)).strobed = s.strobed := rfl
@[simp] theorem State.begin_phase_lcd (s : State) (p : Phase) : (s.begin (.phase p)).lcd = s.lcd := rfl
@[simp] theorem State.begin_phase_busTrace (s : State) (p : Phase) : (s.begin (.phase p)).busTrace = s.busTrace := rfl
@[simp] theorem State.begin_phase_respTrace (s : State) (p : Phase) : (s.begin (.phase p)).respTrace = s.respTrace := rfl
@[simp] theorem State.begin_phase_edge (s : State) (p : Phase) : (s.begin (.phase p)).edge = s.edge := rfl

@[simp] theorem State.accepted_params (s : State) (o : BitVec 2) (b : Byte) : (s.accepted o b).params = s.params := rfl
@[simp] theorem State.accepted_phase (s : State) (o : BitVec 2) (b : Byte) : (s.accepted o b).phase = s.phase := rfl
@[simp] theorem State.accepted_failed (s : State) (o : BitVec 2) (b : Byte) : (s.accepted o b).failed = s.failed := rfl
@[simp] theorem State.accepted_seq (s : State) (o : BitVec 2) (b : Byte) : (s.accepted o b).seq = s.seq := rfl
@[simp] theorem State.accepted_op (s : State) (o : BitVec 2) (b : Byte) : (s.accepted o b).op = o := rfl
@[simp] theorem State.accepted_dbyte (s : State) (o : BitVec 2) (b : Byte) : (s.accepted o b).dbyte = b := rfl
@[simp] theorem State.accepted_act (s : State) (o : BitVec 2) (b : Byte) : (s.accepted o b).act = 0 := rfl
@[simp] theorem State.accepted_dcnt (s : State) (o : BitVec 2) (b : Byte) : (s.accepted o b).dcnt = s.dcnt := rfl
@[simp] theorem State.accepted_wcnt (s : State) (o : BitVec 2) (b : Byte) : (s.accepted o b).wcnt = 0 := rfl
@[simp] theorem State.accepted_outb (s : State) (o : BitVec 2) (b : Byte) : (s.accepted o b).outb = s.outb := rfl
@[simp] theorem State.accepted_resp (s : State) (o : BitVec 2) (b : Byte) : (s.accepted o b).resp = s.resp := rfl
@[simp] theorem State.accepted_inputs (s : State) (o : BitVec 2) (b : Byte) : (s.accepted o b).inputs = s.inputs := rfl
@[simp] theorem State.accepted_expander (s : State) (o : BitVec 2) (b : Byte) : (s.accepted o b).expander = s.expander := rfl
@[simp] theorem State.accepted_strobed (s : State) (o : BitVec 2) (b : Byte) : (s.accepted o b).strobed = s.strobed := rfl
@[simp] theorem State.accepted_lcd (s : State) (o : BitVec 2) (b : Byte) : (s.accepted o b).lcd = s.lcd := rfl
@[simp] theorem State.accepted_busTrace (s : State) (o : BitVec 2) (b : Byte) : (s.accepted o b).busTrace = s.busTrace := rfl
@[simp] theorem State.accepted_respTrace (s : State) (o : BitVec 2) (b : Byte) : (s.accepted o b).respTrace = s.respTrace := rfl
@[simp] theorem State.accepted_edge (s : State) (o : BitVec 2) (b : Byte) : (s.accepted o b).edge = s.edge := rfl

@[simp] theorem State.delivered_params (s : State) : s.delivered.params = s.params := rfl
@[simp] theorem State.delivered_phase (s : State) : s.delivered.phase = s.phase := rfl
@[simp] theorem State.delivered_failed (s : State) : s.delivered.failed = s.failed := rfl
@[simp] theorem State.delivered_seq (s : State) : s.delivered.seq = s.seq := rfl
@[simp] theorem State.delivered_op (s : State) : s.delivered.op = s.op := rfl
@[simp] theorem State.delivered_dbyte (s : State) : s.delivered.dbyte = s.dbyte := rfl
@[simp] theorem State.delivered_act (s : State) : s.delivered.act = s.act := rfl
@[simp] theorem State.delivered_dcnt (s : State) : s.delivered.dcnt = s.dcnt := rfl
@[simp] theorem State.delivered_wcnt (s : State) : s.delivered.wcnt = s.wcnt := rfl
@[simp] theorem State.delivered_outb (s : State) : s.delivered.outb = s.outb := rfl
@[simp] theorem State.delivered_resp (s : State) : s.delivered.resp = s.resp := rfl
@[simp] theorem State.delivered_inputs (s : State) : s.delivered.inputs = s.inputs := rfl
@[simp] theorem State.delivered_expander (s : State) : s.delivered.expander = s.outb := rfl
@[simp] theorem State.delivered_strobed (s : State) : s.delivered.strobed = strobedAfter s.outb s.strobed := rfl
@[simp] theorem State.delivered_lcd (s : State) : s.delivered.lcd = observe s.expander s.outb s.strobed s.lcd := rfl
@[simp] theorem State.delivered_busTrace (s : State) : s.delivered.busTrace = s.busTrace := rfl
@[simp] theorem State.delivered_respTrace (s : State) : s.delivered.respTrace = s.respTrace := rfl
@[simp] theorem State.delivered_edge (s : State) : s.delivered.edge = s.edge := rfl

/-- No output has changed yet. -/
@[simp] theorem settle_none (old new : Byte) : settle 0#8 old new = old := by
  show (old &&& BitVec.allOnes 8) ||| (new &&& 0#8) = old
  rw [BitVec.and_allOnes, BitVec.and_zero, BitVec.or_zero]

/-- Changing outputs once more changes more of them. -/
@[simp] theorem settle_settle (m n old new : Byte) : settle n (settle m old new) new = settle (m ||| n) old new := by
  apply BitVec.eq_of_getLsbD_eq
  intro i hi
  simp only [settle, BitVec.getLsbD_or, BitVec.getLsbD_and, BitVec.getLsbD_not, hi, decide_true, Bool.true_and]
  cases m.getLsbD i <;> cases n.getLsbD i <;> simp

/-- EN changes once, from the old byte's to the new one's. -/
theorem wireEN_settle (m old new : Byte) :
    wireEN (settle m old new) = wireEN old ∨ wireEN (settle m old new) = wireEN new := by
  simp only [wireEN, settle, BitVec.getLsbD_or, BitVec.getLsbD_and, BitVec.getLsbD_not]
  cases m.getLsbD 2 <;> simp

/-- EN falls once, however the outputs settle. -/
theorem observe_settle (m old new : Byte) (v : Nibble) (l : Lcd) :
    observe (settle m old new) new v (observe old (settle m old new) v l) = observe old new v l := by
  rcases wireEN_settle m old new with h | h <;> simp only [observe, h] <;>
    cases wireEN old <;> cases wireEN new <;> rfl

/-- The same part-way: what the controller has seen depends only on where the outputs are. -/
theorem observe_settle_settle (m n old new : Byte) (v : Nibble) (l : Lcd) :
    observe (settle m old new) (settle (m ||| n) old new) v (observe old (settle m old new) v l)
      = observe old (settle (m ||| n) old new) v l := by
  rw [← settle_settle]
  rcases wireEN_settle n (settle m old new) new with h | h <;> rcases wireEN_settle m old new with h' | h' <;>
    simp only [observe, h, h'] <;> cases wireEN old <;> cases wireEN new <;> rfl

@[simp] theorem observe_same (b : Byte) (v : Nibble) (l : Lcd) : observe b b v l = l := by simp [observe]

@[simp] theorem State.inFlight_expander (s : State) :
    s.inFlight.expander = settle (Config.outputsChanged s.edge) s.expander s.outb := rfl
@[simp] theorem State.inFlight_strobed (s : State) : s.inFlight.strobed = s.strobed := rfl
@[simp] theorem State.inFlight_lcd (s : State) :
    s.inFlight.lcd = observe s.expander (settle (Config.outputsChanged s.edge) s.expander s.outb) s.strobed s.lcd := rfl

/-- Whatever has settled before, the byte that is delivered leaves the same. -/
@[simp] theorem State.delivered_inFlight (s : State) : s.inFlight.delivered = s.delivered := by
  simp only [State.delivered, State.inFlight, State.outputsTo, observe_settle]

@[simp] theorem State.inFlight_params (s : State) : s.inFlight.params = s.params := rfl
@[simp] theorem State.inFlight_phase (s : State) : s.inFlight.phase = s.phase := rfl
@[simp] theorem State.inFlight_failed (s : State) : s.inFlight.failed = s.failed := rfl
@[simp] theorem State.inFlight_seq (s : State) : s.inFlight.seq = s.seq := rfl
@[simp] theorem State.inFlight_op (s : State) : s.inFlight.op = s.op := rfl
@[simp] theorem State.inFlight_dbyte (s : State) : s.inFlight.dbyte = s.dbyte := rfl
@[simp] theorem State.inFlight_act (s : State) : s.inFlight.act = s.act := rfl
@[simp] theorem State.inFlight_dcnt (s : State) : s.inFlight.dcnt = s.dcnt := rfl
@[simp] theorem State.inFlight_wcnt (s : State) : s.inFlight.wcnt = s.wcnt := rfl
@[simp] theorem State.inFlight_outb (s : State) : s.inFlight.outb = s.outb := rfl
@[simp] theorem State.inFlight_resp (s : State) : s.inFlight.resp = s.resp := rfl
@[simp] theorem State.inFlight_inputs (s : State) : s.inFlight.inputs = s.inputs := rfl
@[simp] theorem State.inFlight_busTrace (s : State) : s.inFlight.busTrace = s.busTrace := rfl
@[simp] theorem State.inFlight_respTrace (s : State) : s.inFlight.respTrace = s.respTrace := rfl
@[simp] theorem State.inFlight_edge (s : State) : s.inFlight.edge = s.edge := rfl

@[simp] theorem State.lcdUnknown_params (s : State) : s.lcdUnknown.params = s.params := rfl
@[simp] theorem State.lcdUnknown_phase (s : State) : s.lcdUnknown.phase = s.phase := rfl
@[simp] theorem State.lcdUnknown_failed (s : State) : s.lcdUnknown.failed = s.failed := rfl
@[simp] theorem State.lcdUnknown_seq (s : State) : s.lcdUnknown.seq = s.seq := rfl
@[simp] theorem State.lcdUnknown_op (s : State) : s.lcdUnknown.op = s.op := rfl
@[simp] theorem State.lcdUnknown_dbyte (s : State) : s.lcdUnknown.dbyte = s.dbyte := rfl
@[simp] theorem State.lcdUnknown_act (s : State) : s.lcdUnknown.act = s.act := rfl
@[simp] theorem State.lcdUnknown_dcnt (s : State) : s.lcdUnknown.dcnt = s.dcnt := rfl
@[simp] theorem State.lcdUnknown_wcnt (s : State) : s.lcdUnknown.wcnt = s.wcnt := rfl
@[simp] theorem State.lcdUnknown_outb (s : State) : s.lcdUnknown.outb = s.outb := rfl
@[simp] theorem State.lcdUnknown_resp (s : State) : s.lcdUnknown.resp = s.resp := rfl
@[simp] theorem State.lcdUnknown_inputs (s : State) : s.lcdUnknown.inputs = s.inputs := rfl
@[simp] theorem State.lcdUnknown_expander (s : State) : s.lcdUnknown.expander = Config.freeExpander s.edge := rfl
@[simp] theorem State.lcdUnknown_strobed (s : State) : s.lcdUnknown.strobed = Config.freeNibble s.edge := rfl
@[simp] theorem State.lcdUnknown_lcd (s : State) : s.lcdUnknown.lcd = Config.freeLcd s.edge := rfl
@[simp] theorem State.lcdUnknown_busTrace (s : State) : s.lcdUnknown.busTrace = s.busTrace := rfl
@[simp] theorem State.lcdUnknown_respTrace (s : State) : s.lcdUnknown.respTrace = s.respTrace := rfl
@[simp] theorem State.lcdUnknown_edge (s : State) : s.lcdUnknown.edge = s.edge := rfl

@[simp] theorem State.responseTaken_params (s : State) : s.responseTaken.params = s.params := rfl
@[simp] theorem State.responseTaken_phase (s : State) : s.responseTaken.phase = s.phase := rfl
@[simp] theorem State.responseTaken_failed (s : State) : s.responseTaken.failed = s.failed := rfl
@[simp] theorem State.responseTaken_seq (s : State) : s.responseTaken.seq = .idle := rfl
@[simp] theorem State.responseTaken_op (s : State) : s.responseTaken.op = s.op := rfl
@[simp] theorem State.responseTaken_dbyte (s : State) : s.responseTaken.dbyte = s.dbyte := rfl
@[simp] theorem State.responseTaken_act (s : State) : s.responseTaken.act = s.act := rfl
@[simp] theorem State.responseTaken_dcnt (s : State) : s.responseTaken.dcnt = s.dcnt := rfl
@[simp] theorem State.responseTaken_wcnt (s : State) : s.responseTaken.wcnt = s.wcnt := rfl
@[simp] theorem State.responseTaken_outb (s : State) : s.responseTaken.outb = s.outb := rfl
@[simp] theorem State.responseTaken_resp (s : State) : s.responseTaken.resp = s.resp := rfl
@[simp] theorem State.responseTaken_inputs (s : State) : s.responseTaken.inputs = s.inputs := rfl
@[simp] theorem State.responseTaken_expander (s : State) : s.responseTaken.expander = s.expander := rfl
@[simp] theorem State.responseTaken_strobed (s : State) : s.responseTaken.strobed = s.strobed := rfl
@[simp] theorem State.responseTaken_lcd (s : State) : s.responseTaken.lcd = s.lcd := rfl
@[simp] theorem State.responseTaken_busTrace (s : State) : s.responseTaken.busTrace = s.busTrace := rfl
@[simp] theorem State.responseTaken_respTrace (s : State) : s.responseTaken.respTrace = ⟨s.edge, s.resp⟩ :: s.respTrace := rfl
@[simp] theorem State.responseTaken_edge (s : State) : s.responseTaken.edge = s.edge := rfl

@[simp] theorem State.resetEdge_params (s : State) : s.resetEdge.params = s.params := rfl
@[simp] theorem State.resetEdge_phase (s : State) : s.resetEdge.phase = .uninitialized := rfl
@[simp] theorem State.resetEdge_failed (s : State) : s.resetEdge.failed = false := rfl
@[simp] theorem State.resetEdge_seq (s : State) : s.resetEdge.seq = .idle := rfl
@[simp] theorem State.resetEdge_op (s : State) : s.resetEdge.op = 0 := rfl
@[simp] theorem State.resetEdge_dbyte (s : State) : s.resetEdge.dbyte = 0x00 := rfl
@[simp] theorem State.resetEdge_act (s : State) : s.resetEdge.act = 0 := rfl
@[simp] theorem State.resetEdge_dcnt (s : State) : s.resetEdge.dcnt = 0 := rfl
@[simp] theorem State.resetEdge_wcnt (s : State) : s.resetEdge.wcnt = 0 := rfl
@[simp] theorem State.resetEdge_outb (s : State) : s.resetEdge.outb = 0x00 := rfl
@[simp] theorem State.resetEdge_resp (s : State) : s.resetEdge.resp = 0x0000 := rfl
@[simp] theorem State.resetEdge_inputs (s : State) : s.resetEdge.inputs = s.inputs := rfl
@[simp] theorem State.resetEdge_expander (s : State) : s.resetEdge.expander = Config.freeExpander s.edge := rfl
@[simp] theorem State.resetEdge_strobed (s : State) : s.resetEdge.strobed = Config.freeNibble s.edge := rfl
@[simp] theorem State.resetEdge_lcd (s : State) : s.resetEdge.lcd = Config.freeLcd s.edge := rfl
@[simp] theorem State.resetEdge_busTrace (s : State) : s.resetEdge.busTrace = s.busTrace := rfl
@[simp] theorem State.resetEdge_respTrace (s : State) : s.resetEdge.respTrace = s.respTrace := rfl
@[simp] theorem State.resetEdge_edge (s : State) : s.resetEdge.edge = s.edge := rfl

@[simp] theorem State.elapsed_params (s : State) (n : Nat) : (s.elapsed n).params = s.params := rfl
@[simp] theorem State.elapsed_phase (s : State) (n : Nat) : (s.elapsed n).phase = s.phase := rfl
@[simp] theorem State.elapsed_failed (s : State) (n : Nat) : (s.elapsed n).failed = s.failed := rfl
@[simp] theorem State.elapsed_seq (s : State) (n : Nat) : (s.elapsed n).seq = s.seq := rfl
@[simp] theorem State.elapsed_op (s : State) (n : Nat) : (s.elapsed n).op = s.op := rfl
@[simp] theorem State.elapsed_dbyte (s : State) (n : Nat) : (s.elapsed n).dbyte = s.dbyte := rfl
@[simp] theorem State.elapsed_act (s : State) (n : Nat) : (s.elapsed n).act = s.act := rfl
@[simp] theorem State.elapsed_dcnt (s : State) (n : Nat) : (s.elapsed n).dcnt = s.dcnt := rfl
@[simp] theorem State.elapsed_wcnt (s : State) (n : Nat) : (s.elapsed n).wcnt = s.wcnt := rfl
@[simp] theorem State.elapsed_outb (s : State) (n : Nat) : (s.elapsed n).outb = s.outb := rfl
@[simp] theorem State.elapsed_resp (s : State) (n : Nat) : (s.elapsed n).resp = s.resp := rfl
@[simp] theorem State.elapsed_inputs (s : State) (n : Nat) : (s.elapsed n).inputs = s.inputs.drop n := rfl
@[simp] theorem State.elapsed_expander (s : State) (n : Nat) : (s.elapsed n).expander = s.expander := rfl
@[simp] theorem State.elapsed_strobed (s : State) (n : Nat) : (s.elapsed n).strobed = s.strobed := rfl
@[simp] theorem State.elapsed_lcd (s : State) (n : Nat) : (s.elapsed n).lcd = s.lcd := rfl
@[simp] theorem State.elapsed_busTrace (s : State) (n : Nat) : (s.elapsed n).busTrace = s.busTrace := rfl
@[simp] theorem State.elapsed_respTrace (s : State) (n : Nat) : (s.elapsed n).respTrace = s.respTrace := rfl
@[simp] theorem State.elapsed_edge (s : State) (n : Nat) : (s.elapsed n).edge = s.edge + n := rfl

end Sys2Proof.Machine
end

