-- ==== Sys2Proof/Laws/Ops.lean ====
section
/-! SUPPORT. What each shared operation can do, once. -/

namespace Sys2Proof.Machine

/-! ## Action lists -/

@[simp] theorem actionList_accepted (s : State) (o : BitVec 2) (d : Byte) :
    (s.accepted o d).actionList = actions s.params o d := rfl

theorem actions_status (p : Params) (d : Byte) : actions p 0 d = [] := rfl

theorem actions_init (p : Params) (d : Byte) : actions p opInit d = initActions p := rfl

theorem actions_writeCommand (p : Params) (d : Byte) : actions p opWriteCommand d = sendByte p d false := rfl

theorem actions_writeData (p : Params) (d : Byte) : actions p opWriteData d = sendByte p d true := rfl

/-- No list is longer than 54 actions (R24). -/
theorem actions_length_le (p : Params) (o : BitVec 2) (d : Byte) : (actions p o d).length ≤ 54 := by
  unfold actions
  split
  · simp
  · split
    · exact Nat.le_refl 54
    · exact Nat.le_of_ble_eq_true rfl

/-- An index into the current list fits `ACT` (R24). -/
theorem index_lt_of_getElem? {s : State} {i : Nat} {a : Action} (h : s.actionList[i]? = some a) : i < 54 := by
  obtain ⟨hi, -⟩ := List.getElem?_eq_some_iff.mp h
  exact Nat.lt_of_lt_of_le hi (actions_length_le ..)

/-- `ACT + 1` does not wrap below the end of a list (R24). -/
theorem act_succ_toNat {s : State} (h : s.act.toNat < 63) : (s.act + 1).toNat = s.act.toNat + 1 := by
  simp [BitVec.toNat_add]
  omega

/-! ## Going on in a list -/

theorem enter_of_some {s : State} {i : Nat} {a : Action} (h : s.actionList[i]? = some a) :
    enter s i = .next (s.begin a) := by
  obtain ⟨hi, -⟩ := List.getElem?_eq_some_iff.mp h
  simp [enter, h, Nat.ne_of_lt hi]

theorem enter_at_end {s : State} {i : Nat} (h : i = s.actionList.length) : enter s i = .next s.finish := by
  simp [enter, h]

/-- What `enter` can do when it answers a next state: start the action at the index, or finish at the end of the list. -/
theorem enter_cases {s t : State} {i : Nat} (h : enter s i = .next t) :
    (∃ a, s.actionList[i]? = some a ∧ t = s.begin a) ∨ (i = s.actionList.length ∧ t = s.finish) := by
  unfold enter at h
  split at h
  · exact .inr ⟨‹_›, by simpa using h.symm⟩
  · split at h
    · exact .inl ⟨_, ‹_›, by simpa using h.symm⟩
    · cases h

/-- `enter` stops only above the end of the list (R77). -/
theorem enter_answers {s : State} {i : Nat} (h : i ≤ s.actionList.length) : ∃ t, enter s i = .next t := by
  rcases Nat.lt_or_eq_of_le h with h | h
  · exact ⟨_, enter_of_some (List.getElem?_eq_getElem h)⟩
  · exact ⟨_, enter_at_end h⟩

/-- What `advance` can do when it answers a next state. -/
theorem advance_cases {s t : State} (h : advance s = .next t) :
    (∃ a, s.actionList[s.act.toNat + 1]? = some a ∧ t = ({ s with act := s.act + 1 } : State).begin a)
    ∨ (s.act.toNat + 1 = s.actionList.length ∧ t = ({ s with act := s.act + 1 } : State).finish) :=
  enter_cases h

theorem advance_of_some {s : State} {a : Action} (h : s.actionList[s.act.toNat + 1]? = some a) :
    advance s = .next (({ s with act := s.act + 1 } : State).begin a) :=
  enter_of_some (s := { s with act := s.act + 1 }) h

theorem advance_at_end {s : State} (h : s.act.toNat + 1 = s.actionList.length) :
    advance s = .next ({ s with act := s.act + 1 } : State).finish :=
  enter_at_end (s := { s with act := s.act + 1 }) h

/-- `advance` from an action of the list always answers. -/
theorem advance_answers {s : State} (h : s.act.toNat < s.actionList.length) : ∃ t, advance s = .next t :=
  enter_answers (s := { s with act := s.act + 1 }) h

theorem loadDelay_of_lt {p : Params} {d : Nat} (h : d < 2 ^ p.dcntW) : loadDelay p d = d := Nat.mod_eq_of_lt h

/-! ## Requests -/

theorem whenIdle_idle {s : State} {o : Out} (h : s.seq = .idle) : whenIdle s o = o := by simp [whenIdle, h]

theorem whenIdle_busy {s : State} {o : Out} (h : s.seq ≠ .idle) : whenIdle s o = .next s := by simp [whenIdle, h]

/-- Starting INIT puts its first strobe in `OUTB` (R104, R121). -/
theorem start_init (s : State) :
    start s opInit 0x00 = .next ((s.accepted opInit 0x00).begin (.write (strobe 0x3 false))) :=
  enter_of_some rfl

/-- Starting a write operation puts the first strobe of its byte in `OUTB` (R96, R98, R121). -/
theorem start_write {o : BitVec 2} (h : o = opWriteCommand ∨ o = opWriteData) (s : State) (d : Byte) :
    start s o d = .next ((s.accepted o d).begin (.write (strobe (hiNibble d) (rsOfOp o)))) := by
  rcases h with rfl | rfl <;> exact enter_of_some rfl

/-- What `acceptWrite` can do: nothing while busy, one of two rejections, or the start. -/
theorem acceptWrite_cases {o : BitVec 2} {d : Byte} {s t : State} (h : acceptWrite o d s = .next t) :
    (s.seq ≠ .idle ∧ t = s)
    ∨ (s.seq = .idle ∧ s.failed = true ∧ t = s.respond .failed)
    ∨ (s.seq = .idle ∧ s.failed = false ∧ s.phase ≠ .ready ∧ t = s.respond .notReady)
    ∨ (s.seq = .idle ∧ s.failed = false ∧ s.phase = .ready ∧ start s o d = .next t) := by
  unfold acceptWrite whenIdle at h
  split at h
  · split at h
    · exact .inr (.inl ⟨‹_›, ‹_›, by simpa using h.symm⟩)
    · have hf : s.failed = false := by simpa using ‹¬s.failed = true›
      split at h
      · exact .inr (.inr (.inl ⟨‹_›, hf, ‹_›, by simpa using h.symm⟩))
      · exact .inr (.inr (.inr ⟨‹_›, hf, by simpa using ‹¬s.phase ≠ .ready›, h⟩))
  · exact .inl ⟨‹_›, by simpa using h.symm⟩

/-- What INIT can do: nothing while busy, one of two rejections, or the start. -/
theorem execInit_cases {s t : State} (h : execInit s = .next t) :
    (s.seq ≠ .idle ∧ t = s)
    ∨ (s.seq = .idle ∧ s.failed = true ∧ t = s.respond .failed)
    ∨ (s.seq = .idle ∧ s.failed = false ∧ s.phase ≠ .uninitialized ∧ t = s.respond .badState)
    ∨ (s.seq = .idle ∧ s.failed = false ∧ s.phase = .uninitialized ∧ start s opInit 0x00 = .next t) := by
  unfold execInit whenIdle at h
  split at h
  · split at h
    · exact .inr (.inl ⟨‹_›, ‹_›, by simpa using h.symm⟩)
    · have hf : s.failed = false := by simpa using ‹¬s.failed = true›
      split at h
      · exact .inr (.inr (.inl ⟨‹_›, hf, ‹_›, by simpa using h.symm⟩))
      · exact .inr (.inr (.inr ⟨‹_›, hf, by simpa using ‹¬s.phase ≠ .uninitialized›, h⟩))
  · exact .inl ⟨‹_›, by simpa using h.symm⟩

/-- The code with which a request or an illegal word is answered at once, and when (R121, R133). -/
inductive AnsweredAtOnce (s : State) (d : Decoded) : Code → Prop where
  | illegal (why : Reject) : d = .illegal why → AnsweredAtOnce s d .illegalOp
  | status : d = .legal .status → AnsweredAtOnce s d .ok
  | failed (i : Instr) : d = .legal i → i ≠ .status → s.failed = true → AnsweredAtOnce s d .failed
  | badState : d = .legal .init → s.failed = false → s.phase ≠ .uninitialized → AnsweredAtOnce s d .badState
  | notReady (b : Byte) : d = .legal (.writeCommand b) ∨ d = .legal (.writeData b) → s.failed = false →
      s.phase ≠ .ready → AnsweredAtOnce s d .notReady

/-- The operation a request starts, when it starts (R121). -/
inductive Starts (s : State) (d : Decoded) : BitVec 2 → Byte → Byte → Prop where
  | init : d = .legal .init → s.failed = false → s.phase = .uninitialized →
      Starts s d opInit 0x00 (strobe 0x3 false)
  | writeCommand (b : Byte) : d = .legal (.writeCommand b) → s.failed = false → s.phase = .ready →
      Starts s d opWriteCommand b (strobe (hiNibble b) false)
  | writeData (b : Byte) : d = .legal (.writeData b) → s.failed = false → s.phase = .ready →
      Starts s d opWriteData b (strobe (hiNibble b) true)

/-- All that accepting a word in IDLE can do: answer at once, or start an operation with its first strobe. -/
theorem accept_cases {w : Word} {s t : State} (hs : s.seq = .idle) (h : accept w s = .next t) :
    (∃ c, AnsweredAtOnce s (decode w) c ∧ t = s.respond c)
    ∨ (∃ o d b, Starts s (decode w) o d b ∧ t = (s.accepted o d).begin (.write b)) := by
  unfold accept at h
  split at h
  · next i hd =>
    cases i with
    | status =>
      simp only [exec, execStatus, whenIdle_idle hs, Host.Outcome.next.injEq] at h
      exact .inl ⟨.ok, .status hd, h.symm⟩
    | init =>
      rcases execInit_cases h with ⟨hb, -⟩ | ⟨-, hf, rfl⟩ | ⟨-, hf, hp, rfl⟩ | ⟨-, hf, hp, hst⟩
      · exact absurd hs hb
      · exact .inl ⟨.failed, .failed _ hd (by simp) hf, rfl⟩
      · exact .inl ⟨.badState, .badState hd hf hp, rfl⟩
      · rw [start_init] at hst
        exact .inr ⟨_, _, _, .init hd hf hp, by simpa using hst.symm⟩
    | writeCommand b =>
      rcases acceptWrite_cases h with ⟨hb, -⟩ | ⟨-, hf, rfl⟩ | ⟨-, hf, hp, rfl⟩ | ⟨-, hf, hp, hst⟩
      · exact absurd hs hb
      · exact .inl ⟨.failed, .failed _ hd (by simp) hf, rfl⟩
      · exact .inl ⟨.notReady, .notReady b (.inl hd) hf hp, rfl⟩
      · rw [start_write (.inl rfl)] at hst
        exact .inr ⟨_, _, _, .writeCommand b hd hf hp, (Host.Outcome.next.inj hst).symm⟩
    | writeData b =>
      rcases acceptWrite_cases h with ⟨hb, -⟩ | ⟨-, hf, rfl⟩ | ⟨-, hf, hp, rfl⟩ | ⟨-, hf, hp, hst⟩
      · exact absurd hs hb
      · exact .inl ⟨.failed, .failed _ hd (by simp) hf, rfl⟩
      · exact .inl ⟨.notReady, .notReady b (.inr hd) hf hp, rfl⟩
      · rw [start_write (.inr rfl)] at hst
        exact .inr ⟨_, _, _, .writeData b hd hf hp, (Host.Outcome.next.inj hst).symm⟩
  · next why hd =>
    simp only [rejectIllegal, whenIdle_idle hs, Host.Outcome.next.injEq] at h
    exact .inl ⟨.illegalOp, .illegal why hd, h.symm⟩

/-- Accepting a word in IDLE always answers. -/
theorem accept_answers {s : State} (hs : s.seq = .idle) (w : Word) : ∃ t, accept w s = .next t := by
  unfold accept
  split
  · next i _ =>
    cases i <;>
      simp only [exec, execStatus, execInit, execWriteCommand, execWriteData, acceptWrite, whenIdle_idle hs, start_init,
        start_write (.inl rfl), start_write (.inr rfl)]
    · exact ⟨_, rfl⟩
    all_goals split_ifs <;> exact ⟨_, rfl⟩
  · exact ⟨_, whenIdle_idle hs⟩

end Sys2Proof.Machine
end

