-- ==== Sys2Proof/Laws/Step.lean ====
section
/-! SUPPORT. The inputs of an edge, the step by sequencer state, and runs. -/

namespace Sys2Proof.Machine

/-! ## Inputs -/

@[simp] theorem pinsAt_zero (s : State) : s.pinsAt 0 = s.pins := rfl

@[simp] theorem pins_cons (s : State) (p : Pins) (rest : List Pins) :
    ({ s with inputs := p :: rest } : State).pins = p := rfl

@[simp] theorem clocked_pinsAt (s : State) (k : Nat) : s.clocked.pinsAt k = s.pinsAt (k + 1) := by
  simp only [State.pinsAt, State.clocked_inputs, State.clocked_edge, List.getD_eq_getElem?_getD, List.getElem?_tail]
  rw [Nat.add_assoc, Nat.add_comm 1 k]

/-- The inputs to come depend on the schedule and the edge alone. -/
theorem pinsAt_congr {s t : State} (hi : s.inputs = t.inputs) (he : s.edge = t.edge) (k : Nat) :
    s.pinsAt k = t.pinsAt k := by
  simp [State.pinsAt, hi, he]

theorem clocked_elapsed (s : State) (n : Nat) : (s.elapsed n).clocked = s.elapsed (n + 1) := by
  simp [State.clocked, State.elapsed, Nat.add_assoc]

theorem elapsed_zero (s : State) : s.elapsed 0 = s := by simp [State.elapsed]

/-! ## The arms of the step (R76) -/

theorem step_rst {s : State} (h : s.pins.rst = true) : step s = .next s.clocked.resetEdge := by simp [step, h]

theorem step_idle_request {s : State} (h : s.pins.rst = false) (hs : s.seq = .idle) (hv : s.pins.reqValid = true) :
    step s = accept s.pins.reqWord s.clocked := by simp [step, h, hs, hv]

theorem step_idle_quiet {s : State} (h : s.pins.rst = false) (hs : s.seq = .idle) (hv : s.pins.reqValid = false) :
    step s = .next s.clocked := by simp [step, h, hs, hv]

theorem step_issue {s : State} (h : s.pins.rst = false) (hs : s.seq = .issue) :
    step s = issueEdge s.pins s.clocked := by simp [step, h, hs]

theorem step_await {s : State} (h : s.pins.rst = false) (hs : s.seq = .await) :
    step s = awaitEdge s.pins s.clocked := by simp [step, h, hs]

theorem step_delay {s : State} (h : s.pins.rst = false) (hs : s.seq = .delay) : step s = delayEdge s.clocked := by
  simp [step, h, hs]

theorem step_setph {s : State} (h : s.pins.rst = false) (hs : s.seq = .setph) : step s = setPhaseEdge s.clocked := by
  simp [step, h, hs]

theorem step_respond {s : State} (h : s.pins.rst = false) (hs : s.seq = .respond) :
    step s = respondEdge s.pins s.clocked := by simp [step, h, hs]

/-- All that one edge can do when it answers a next state. -/
inductive StepTo (s t : State) : Prop where
  | reset : s.pins.rst = true → t = s.clocked.resetEdge → StepTo s t
  | wait : s.pins.rst = false →
      (s.seq = .idle ∧ s.pins.reqValid = false ∨ s.seq = .respond ∧ s.pins.respReady = false) →
      t = s.clocked → StepTo s t
  | flying : s.pins.rst = false →
      (s.seq = .issue ∧ s.pins.busReqReady = false ∨ s.seq = .await ∧ s.pins.busRespValid = false) →
      t = s.clocked.inFlight → StepTo s t
  | answered (c : Code) : s.pins.rst = false → s.seq = .idle → s.pins.reqValid = true →
      AnsweredAtOnce s (decode s.pins.reqWord) c → t = s.clocked.respond c → StepTo s t
  | started (o : BitVec 2) (d b : Byte) : s.pins.rst = false → s.seq = .idle → s.pins.reqValid = true →
      Starts s (decode s.pins.reqWord) o d b → t = (s.clocked.accepted o d).begin (.write b) → StepTo s t
  | issued : s.pins.rst = false → s.seq = .issue → s.pins.busReqReady = true →
      t = { s.clocked.inFlight with
            seq := .await, busTrace := ⟨s.edge + 1, s.params.devAddr, s.outb⟩ :: s.busTrace } → StepTo s t
  | acked : s.pins.rst = false → s.seq = .await → s.pins.busRespValid = true → s.pins.busRespErr = 0b00 →
      advance { s.clocked.delivered with wcnt := s.wcnt + 1 } = .next t → StepTo s t
  | aborted : s.pins.rst = false → s.seq = .await → s.pins.busRespValid = true → s.pins.busRespErr ≠ 0b00 →
      t = { s.clocked.lcdUnknown with
            failed := true, resp := respWord .busError s.pins.busRespErr s.wcnt, seq := .respond } → StepTo s t
  | counted : s.pins.rst = false → s.seq = .delay → 1 < s.dcnt →
      t = { s.clocked with dcnt := s.dcnt - 1 } → StepTo s t
  | expired : s.pins.rst = false → s.seq = .delay → s.dcnt ≤ 1 → advance s.clocked = .next t → StepTo s t
  | phased (p : Phase) : s.pins.rst = false → s.seq = .setph → s.actionList[s.act.toNat]? = some (.phase p) →
      advance { s.clocked with phase := p } = .next t → StepTo s t
  | taken : s.pins.rst = false → s.seq = .respond → s.pins.respReady = true →
      t = s.clocked.responseTaken → StepTo s t

/-- `AnsweredAtOnce` looks at `FAILED` and `PHASE` only. -/
theorem AnsweredAtOnce.of_clocked {s : State} {d : Decoded} {c : Code} (h : AnsweredAtOnce s.clocked d c) :
    AnsweredAtOnce s d c := by
  cases h with
  | illegal why h => exact .illegal why h
  | status h => exact .status h
  | failed i h hi hf => exact .failed i h hi hf
  | badState h hf hp => exact .badState h hf hp
  | notReady b h hf hp => exact .notReady b h hf hp

theorem Starts.of_clocked {s : State} {d : Decoded} {o : BitVec 2} {x b : Byte} (h : Starts s.clocked d o x b) :
    Starts s d o x b := by
  cases h with
  | init h hf hp => exact .init h hf hp
  | writeCommand _ h hf hp => exact .writeCommand x h hf hp
  | writeData _ h hf hp => exact .writeData x h hf hp

/-- The inversion of the step: what later proofs cite instead of unfolding it. -/
theorem step_cases {s t : State} (h : step s = .next t) : StepTo s t := by
  cases hr : s.pins.rst with
  | true => exact .reset hr (by simpa [step_rst hr] using h.symm)
  | false =>
    cases hs : s.seq with
    | idle =>
      cases hv : s.pins.reqValid with
      | false =>
        rw [step_idle_quiet hr hs hv] at h
        exact .wait hr (.inl ⟨hs, hv⟩) (by simpa using h.symm)
      | true =>
        rw [step_idle_request hr hs hv] at h
        rcases accept_cases (s := s.clocked) hs h with ⟨c, hc, rfl⟩ | ⟨o, d, b, hb, rfl⟩
        · exact .answered c hr hs hv hc.of_clocked rfl
        · exact .started o d b hr hs hv hb.of_clocked rfl
    | issue =>
      rw [step_issue hr hs, issueEdge] at h
      split at h
      · exact .issued hr hs ‹_› (by simpa using h.symm)
      · next hb => exact .flying hr (.inl ⟨hs, by simpa using hb⟩) (by simpa using h.symm)
    | await =>
      rw [step_await hr hs, awaitEdge] at h
      split at h
      · split at h
        · exact .acked hr hs ‹_› ‹_› h
        · exact .aborted hr hs ‹_› ‹_› (by simpa [abort] using h.symm)
      · next hb => exact .flying hr (.inr ⟨hs, by simpa using hb⟩) (by simpa using h.symm)
    | delay =>
      rw [step_delay hr hs, delayEdge] at h
      split at h
      · exact .expired hr hs ‹_› h
      · next hd => exact .counted hr hs (Nat.lt_of_not_le hd) (by simpa using h.symm)
    | setph =>
      rw [step_setph hr hs, setPhaseEdge] at h
      split at h
      · exact .phased _ hr hs ‹_› h
      · cases h
    | respond =>
      rw [step_respond hr hs, respondEdge] at h
      split at h
      · exact .taken hr hs ‹_› (by simpa using h.symm)
      · next hb => exact .wait hr (.inr ⟨hs, by simpa using hb⟩) (by simpa using h.symm)

/-- Every edge uses up the inputs of one edge and counts one, whatever else it does. -/
theorem step_clock {s t : State} (h : step s = .next t) : t.inputs = s.inputs.tail ∧ t.edge = s.edge + 1 := by
  have of_begin : ∀ (u : State) (a : Action), (u.begin a).inputs = u.inputs ∧ (u.begin a).edge = u.edge :=
    fun u a => by cases a <;> simp
  have of_advance : ∀ {u : State}, advance u = .next t → t.inputs = u.inputs ∧ t.edge = u.edge := by
    intro u hu
    rcases advance_cases hu with ⟨a, -, rfl⟩ | ⟨-, rfl⟩
    · exact of_begin _ a
    · exact ⟨rfl, rfl⟩
  cases step_cases h with
  | reset _ ht => subst ht; exact ⟨rfl, rfl⟩
  | wait _ _ ht => subst ht; exact ⟨rfl, rfl⟩
  | flying _ _ ht => subst ht; simp
  | answered c _ _ _ _ ht => subst ht; exact ⟨rfl, rfl⟩
  | started o d b _ _ _ _ ht => subst ht; exact ⟨rfl, rfl⟩
  | issued _ _ _ ht => subst ht; simp
  | acked _ _ _ _ ht => exact of_advance ht
  | aborted _ _ _ _ ht => subst ht; exact ⟨rfl, rfl⟩
  | counted _ _ _ ht => subst ht; exact ⟨rfl, rfl⟩
  | expired _ _ _ ht => exact of_advance ht
  | phased p _ _ _ ht => exact of_advance ht
  | taken _ _ _ ht => subst ht; exact ⟨rfl, rfl⟩

/-- The inputs a step leaves to come. -/
theorem step_pinsAt {s t : State} (h : step s = .next t) (k : Nat) : t.pinsAt k = s.pinsAt (k + 1) := by
  obtain ⟨hi, he⟩ := step_clock h
  rw [← clocked_pinsAt]
  exact pinsAt_congr hi he k

/-! ## Runs -/

@[simp] theorem runSteps_zero (s : State) : runSteps 0 s = .next s := rfl

theorem runSteps_succ {s t : State} (h : step s = .next t) (n : Nat) : runSteps (n + 1) s = runSteps n t := by
  simp [runSteps, h]

theorem runSteps_add {s t : State} {n : Nat} (h : runSteps n s = .next t) (m : Nat) :
    runSteps (n + m) s = runSteps m t := by
  induction n generalizing s with
  | zero => cases h; simp
  | succ n ih =>
    rw [Nat.add_right_comm]
    cases hs : step s with
    | next u =>
      rw [runSteps_succ hs] at h ⊢
      exact ih h
    | fault r => simp [runSteps, hs] at h
    | refused r => simp [runSteps, hs] at h

/-- A run's own edge and the inputs it leaves. -/
theorem runSteps_clock {s t : State} {n : Nat} (h : runSteps n s = .next t) :
    t.inputs = s.inputs.drop n ∧ t.edge = s.edge + n := by
  induction n generalizing s with
  | zero => cases h; simp
  | succ n ih =>
    cases hs : step s with
    | next u =>
      rw [runSteps_succ hs] at h
      obtain ⟨hi, he⟩ := ih h
      obtain ⟨hi', he'⟩ := step_clock hs
      refine ⟨?_, by omega⟩
      rw [hi, hi', List.drop_tail]
    | fault r => simp [runSteps, hs] at h
    | refused r => simp [runSteps, hs] at h

/-- The model's run is the run of the host's interface. -/
theorem runSteps_eq_core_run (n : Nat) (s : State) : runSteps n s = Sys2Proof.core.run n s := by
  induction n generalizing s with
  | zero => rfl
  | succ n ih =>
    cases hs : step s with
    | next u => simp [runSteps, Host.Core.run, hs, ih, show Sys2Proof.core.step s = .next u from hs]; rfl
    | fault r => simp [runSteps, Host.Core.run, hs, show Sys2Proof.core.step s = .fault r from hs]; rfl
    | refused r => simp [runSteps, Host.Core.run, hs, show Sys2Proof.core.step s = .refused r from hs]; rfl

theorem State.NoReset.head {s : State} {n : Nat} (h : s.NoReset (n + 1)) : s.pins.rst = false := h 0 (Nat.succ_pos n)

theorem State.NoReset.tail {s t : State} {n : Nat} (h : s.NoReset (n + 1)) (hs : step s = .next t) : t.NoReset n :=
  fun k hk => by rw [step_pinsAt hs]; exact h (k + 1) (Nat.succ_lt_succ hk)

theorem State.immediate_iff {s : State} : s.immediate = true ↔
    s.pins.rst = false ∧ (s.seq = .issue → s.pins.busReqReady = true)
    ∧ (s.seq = .await → s.pins.busRespValid = true ∧ s.pins.busRespErr = 0b00) := by
  simp [State.immediate, imp_iff_not_or, and_assoc]

theorem State.Immediate.head {s : State} {n : Nat} (h : s.Immediate (n + 1)) : s.immediate = true :=
  h 0 (Nat.succ_pos n) s rfl

/-- What is left of a run through the immediate environment. -/
theorem State.Immediate.drop {s t : State} {m n : Nat} (h : s.Immediate (m + n)) (hr : runSteps m s = .next t) :
    t.Immediate n :=
  fun k hk u hu => h (m + k) (Nat.add_lt_add_left hk m) u (by rw [runSteps_add hr, hu])

theorem State.Immediate.tail {s t : State} {n : Nat} (h : s.Immediate (n + 1)) (hs : step s = .next t) :
    t.Immediate n :=
  (Nat.add_comm n 1 ▸ h).drop (runSteps_succ hs 0)

theorem State.Immediate.mono {s : State} {m n : Nat} (h : s.Immediate n) (hmn : m ≤ n) : s.Immediate m :=
  fun k hk => h k (Nat.lt_of_lt_of_le hk hmn)

theorem State.Served.drop {s t : State} {w m n : Nat} (h : s.Served w (m + n)) (hr : runSteps m s = .next t) :
    t.Served w n :=
  fun k hk u hu => h (m + k) (Nat.add_lt_add_left hk m) u (by rw [runSteps_add hr, hu])

/-- The inputs a run leaves to come. -/
theorem runSteps_pinsAt {s t : State} {n : Nat} (h : runSteps n s = .next t) (k : Nat) : t.pinsAt k = s.pinsAt (n + k) := by
  obtain ⟨hi, he⟩ := runSteps_clock h
  simp [State.pinsAt, hi, he, List.getElem?_drop, Nat.add_assoc]

end Sys2Proof.Machine
end

