-- ==== Sys2Proof/Laws/Run.lean ====
section
/-! SUPPORT. A run of an action list in the immediate environment: what performing one action, and then a whole list,
leaves. -/

namespace Sys2Proof.Machine

/-- The delays of an action fit: at least one cycle, and no more than `DCNT` holds (R8). -/
def Action.Fits (p : Params) : Action → Prop
  | .write _ => True
  | .delay d => 1 ≤ d ∧ d < 2 ^ p.dcntW
  | .phase _ => True

/-- What performing an action leaves, up to its `advance`. -/
def performed (s : State) : Action → State
  | .write b =>
    { s.elapsed 2 with
      outb := b, seq := .await, wcnt := s.wcnt + 1, busTrace := ⟨s.edge + 1, s.params.devAddr, b⟩ :: s.busTrace
      expander := b, strobed := strobedAfter b s.strobed
      lcd := observe s.expander b s.strobed s.lcd }
  | .delay d => { s.elapsed d with dcnt := 1, seq := .delay }
  | .phase p => { s.elapsed 1 with phase := p, seq := .setph }

/-- What performing a list leaves, up to the end of the operation. -/
def performedAll (s : State) : List Action → State
  | [] => s
  | a :: rest => performedAll { performed s a with act := s.act + 1 } rest

/-- The state that has entered the first action of a list, or has finished. -/
def entered (s : State) : List Action → State
  | [] => s.finish
  | a :: _ => s.begin a

@[simp] theorem performed_params (s : State) (a : Action) : (performed s a).params = s.params := by cases a <;> rfl

@[simp] theorem performed_op (s : State) (a : Action) : (performed s a).op = s.op := by cases a <;> rfl

@[simp] theorem performed_dbyte (s : State) (a : Action) : (performed s a).dbyte = s.dbyte := by cases a <;> rfl

@[simp] theorem performed_act (s : State) (a : Action) : (performed s a).act = s.act := by cases a <;> rfl

@[simp] theorem performed_failed (s : State) (a : Action) : (performed s a).failed = s.failed := by cases a <;> rfl

@[simp] theorem performed_actionList (s : State) (a : Action) : (performed s a).actionList = s.actionList := by
  cases a <;> rfl

theorem performed_clock (s : State) {a : Action} (h : a.Fits s.params) :
    (performed s a).inputs = s.inputs.drop a.minCycles ∧ (performed s a).edge = s.edge + a.minCycles := by
  cases a with
  | delay d => simp [performed, Action.minCycles, Nat.max_eq_left h.1]
  | _ => exact ⟨rfl, rfl⟩

/-- A delay of `d + 1` cycles: the first `d` only count down (R81). -/
theorem run_delay (d : Nat) (s : State) (hs : s.seq = .delay) (hd : s.dcnt = d + 1) (hr : s.NoReset (d + 1)) :
    runSteps (d + 1) s = advance { s.elapsed (d + 1) with dcnt := 1 } := by
  induction d generalizing s with
  | zero =>
    have h1 : step s = advance s.clocked := by
      rw [step_delay hr.head hs, delayEdge, if_pos (by simp [hd])]
    have e : ({ s.elapsed (0 + 1) with dcnt := 1 } : State) = s.clocked := by
      rw [← clocked_elapsed, elapsed_zero]
      simp [State.clocked, hd]
    rw [e, ← h1]
    simp only [runSteps]
    split <;> simp_all
  | succ d ih =>
    have h1 : step s = .next { s.clocked with dcnt := s.dcnt - 1 } := by
      rw [step_delay hr.head hs, delayEdge, if_neg (by simp [hd])]
      rfl
    rw [runSteps_succ h1, ih { s.clocked with dcnt := s.dcnt - 1 } hs (by simp [hd]) (hr.tail h1)]
    congr 1
    simp [State.elapsed, State.clocked]
    omega

/-- A delay in the immediate environment has no reset. -/
theorem noReset_of_delay (d : Nat) (s : State) (hs : s.seq = .delay) (hd : s.dcnt = d + 1) (him : s.Immediate (d + 1)) :
    s.NoReset (d + 1) := by
  have h0 := (State.immediate_iff.mp him.head).1
  induction d generalizing s with
  | zero => exact fun k hk => by rwa [Nat.lt_one_iff.mp hk]
  | succ d ih =>
    have h1 : step s = .next { s.clocked with dcnt := s.dcnt - 1 } := by
      rw [step_delay h0 hs, delayEdge, if_neg (by simp [hd])]
      rfl
    have ht := him.tail h1
    intro k hk
    cases k with
    | zero => exact h0
    | succ k =>
      rw [← step_pinsAt h1]
      exact ih { s.clocked with dcnt := s.dcnt - 1 } hs (by simp [hd]) ht (State.immediate_iff.mp ht.head).1 k (Nat.lt_of_succ_lt_succ hk)

/-- The byte handed over at one edge and acknowledged at the next lands, whenever the expander takes it. -/
theorem delivered_of_inFlight (s : State) (q : Seq) (l : List BusWrite) :
    ({ s.inFlight with seq := q, busTrace := l } : State).clocked.delivered
      = { s.clocked.delivered with seq := q, busTrace := l } := by
  simp only [State.delivered, State.inFlight, State.outputsTo, State.clocked, observe_settle]

/-- One action, in the immediate environment (R78, R81, R83). -/
theorem run_action {s : State} {a : Action} (hcur : s.actionList[s.act.toNat]? = some a) (hfit : a.Fits s.params)
    (him : (s.begin a).Immediate a.minCycles) : runSteps a.minCycles (s.begin a) = advance (performed s a) := by
  cases a with
  | write b =>
    have him : (s.begin (.write b)).Immediate (1 + 1) := him
    obtain ⟨h0, h0', -⟩ := State.immediate_iff.mp him.head
    have s1 : step (s.begin (.write b))
        = .next { (s.begin (.write b)).clocked.inFlight with
            seq := .await, busTrace := ⟨s.edge + 1, s.params.devAddr, b⟩ :: s.busTrace } := by
      rw [step_issue (s := s.begin (.write b)) h0 rfl, issueEdge, if_pos (by exact h0' rfl)]
      rfl
    obtain ⟨h1, -, h1'⟩ := State.immediate_iff.mp (him.tail s1).head
    have s2 : step { (s.begin (.write b)).clocked.inFlight with
            seq := .await, busTrace := ⟨s.edge + 1, s.params.devAddr, b⟩ :: s.busTrace }
        = advance (performed s (.write b)) := by
      rw [step_await h1 rfl, awaitEdge, if_pos (h1' rfl).1, if_pos (h1' rfl).2]
      rw [delivered_of_inFlight]
      congr 1
      simp [performed, State.delivered, State.outputsTo, State.elapsed, State.clocked, State.begin, Nat.add_assoc, ← List.drop_one]
    show runSteps 2 _ = _
    rw [runSteps_succ s1, ← s2]
    simp only [runSteps]
    split <;> simp_all
  | delay d =>
    obtain ⟨h1, h2⟩ := hfit
    obtain ⟨e, rfl⟩ : ∃ e, d = e + 1 := ⟨d - 1, by omega⟩
    have hm : (Action.delay (e + 1)).minCycles = e + 1 := Nat.max_eq_left h1
    rw [hm] at him ⊢
    rw [run_delay e (s.begin (.delay (e + 1))) rfl (loadDelay_of_lt h2) (noReset_of_delay e _ rfl (loadDelay_of_lt h2) him)]
    rfl
  | phase p =>
    have h0 := (State.immediate_iff.mp (State.Immediate.head (n := 0) him)).1
    have s1 : step (s.begin (.phase p)) = advance (performed s (.phase p)) := by
      rw [step_setph (s := s.begin (.phase p)) h0 rfl, setPhaseEdge]
      have : (s.begin (.phase p)).clocked.actionList[(s.begin (.phase p)).clocked.act.toNat]? = some (.phase p) := hcur
      rw [this]
      simp [performed, State.elapsed, State.clocked, State.begin, List.drop_one]
    show runSteps 1 _ = _
    rw [← s1]
    simp only [runSteps]
    split <;> simp_all

theorem minCycles_cons (a : Action) (l : List Action) : minCycles (a :: l) = a.minCycles + minCycles l := by
  simp [minCycles]

/-- A whole list, in the immediate environment: after its fewest cycles the operation has finished (R77, R116). -/
theorem run_list (l : List Action) (s : State) (hl : s.actionList.drop s.act.toNat = l)
    (hlen : s.act.toNat ≤ s.actionList.length) (hfit : ∀ a ∈ l, a.Fits s.params) (him : (entered s l).Immediate (minCycles l)) :
    runSteps (minCycles l) (entered s l) = .next (performedAll s l).finish := by
  induction l generalizing s with
  | nil => rfl
  | cons a rest ih =>
    have hcur : s.actionList[s.act.toNat]? = some a := by
      have := congrArg (·[0]?) hl
      simpa using this
    have hlt : s.act.toNat < 54 := index_lt_of_getElem? hcur
    have hsucc : (s.act + 1).toNat = s.act.toNat + 1 := act_succ_toNat (by omega)
    have hrest : s.actionList.drop (s.act.toNat + 1) = rest := by
      have := congrArg List.tail hl
      simpa [List.tail_drop] using this
    rw [minCycles_cons] at him ⊢
    have h1 := run_action hcur (hfit a (by simp)) (him.mono (Nat.le_add_right ..))
    have hnext : advance (performed s a) = .next (entered { performed s a with act := s.act + 1 } rest) := by
      cases hr : rest with
      | nil =>
        have : s.act.toNat + 1 = s.actionList.length := by
          have h := List.length_drop (i := s.act.toNat) (l := s.actionList)
          rw [hl, hr] at h
          simp at h
          omega
        rw [advance_at_end (by simpa using this)]
        simp [entered]
      | cons a' rest' =>
        have : s.actionList[s.act.toNat + 1]? = some a' := by
          have := congrArg (·[0]?) hrest
          simpa [hr] using this
        rw [advance_of_some (a := a') (by simpa using this)]
        simp [entered]
    have h2 : runSteps a.minCycles (entered s (a :: rest)) = _ := h1.trans hnext
    refine (runSteps_add h2 (minCycles rest)).trans ?_
    refine ih { performed s a with act := s.act + 1 } ?_ ?_ ?_ ?_
    · show (performed s a).actionList.drop (s.act + 1).toNat = rest
      rw [hsucc, performed_actionList, hrest]
    · show (s.act + 1).toNat ≤ (performed s a).actionList.length
      rw [hsucc, performed_actionList]
      exact (List.getElem?_eq_some_iff.mp hcur).1
    · intro b hb
      simpa using hfit b (by simp [hb])
    · exact him.drop h2

/-! ## What a performed list leaves in each register -/

@[simp] theorem performedAll_params (l : List Action) (s : State) : (performedAll s l).params = s.params := by
  induction l generalizing s with
  | nil => rfl
  | cons a l ih => simp [performedAll, ih]

@[simp] theorem performedAll_failed (l : List Action) (s : State) : (performedAll s l).failed = s.failed := by
  induction l generalizing s with
  | nil => rfl
  | cons a l ih => simp [performedAll, ih]

@[simp] theorem performedAll_op (l : List Action) (s : State) : (performedAll s l).op = s.op := by
  induction l generalizing s with
  | nil => rfl
  | cons a l ih => simp [performedAll, ih]

@[simp] theorem performedAll_dbyte (l : List Action) (s : State) : (performedAll s l).dbyte = s.dbyte := by
  induction l generalizing s with
  | nil => rfl
  | cons a l ih => simp [performedAll, ih]

theorem performedAll_act (l : List Action) (s : State) : (performedAll s l).act = s.act + BitVec.ofNat 6 l.length := by
  induction l generalizing s with
  | nil => simp [performedAll]
  | cons a l ih =>
    rw [performedAll, ih, List.length_cons, BitVec.ofNat_add, BitVec.add_assoc, BitVec.add_comm (BitVec.ofNat 6 l.length)]
    rfl

theorem performedAll_phase (l : List Action) (s : State) : (performedAll s l).phase = phaseAfter s.phase l := by
  induction l generalizing s with
  | nil => rfl
  | cons a l ih => cases a <;> simp [performedAll, ih, performed, phaseAfter]

theorem performedAll_wcnt (l : List Action) (s : State) :
    (performedAll s l).wcnt = s.wcnt + BitVec.ofNat 8 (writtenBytes l).length := by
  induction l generalizing s with
  | nil => simp [performedAll, writtenBytes]
  | cons a l ih =>
    cases a with
    | write b =>
      rw [performedAll, ih, writtenBytes, List.length_cons, BitVec.ofNat_add, BitVec.add_comm (BitVec.ofNat 8 _),
        ← BitVec.add_assoc]
      rfl
    | delay d => simp [performedAll, ih, performed, writtenBytes]
    | phase p => simp [performedAll, ih, performed, writtenBytes]

/-- The trace grows by the bytes the list writes, in order, all to `DEV_ADDR` (R40, R51). -/
theorem performedAll_busTrace (l : List Action) (s : State) :
    ∃ new : List BusWrite, (performedAll s l).busTrace = new ++ s.busTrace
      ∧ (new.map BusWrite.data).reverse = writtenBytes l ∧ ∀ w ∈ new, w.addr = s.params.devAddr := by
  induction l generalizing s with
  | nil => exact ⟨[], rfl, rfl, by simp⟩
  | cons a l ih =>
    obtain ⟨new, h1, h2, h3⟩ := ih { performed s a with act := s.act + 1 }
    cases a with
    | write b =>
      refine ⟨new ++ [⟨s.edge + 1, s.params.devAddr, b⟩], ?_, ?_, ?_⟩
      · rw [performedAll, h1]
        simp [performed]
      · simp [writtenBytes, ← h2]
      · intro w hw
        rcases List.mem_append.mp hw with hw | hw
        · simpa using h3 w hw
        · rw [List.mem_singleton.mp hw]
    | delay d => exact ⟨new, h1, h2, by simpa using h3⟩
    | phase p => exact ⟨new, h1, h2, by simpa using h3⟩

/-- The LCD side (the outputs, the strobed nibble, the controller) after a byte has been delivered. -/
def seen (x : Byte × Nibble × Lcd) (b : Byte) : Byte × Nibble × Lcd :=
  (b, strobedAfter b x.2.1, observe x.1 b x.2.1 x.2.2)

/-- The LCD side after a list has seen its bytes, one after another. -/
theorem performedAll_lcd (l : List Action) (s : State) :
    ((performedAll s l).expander, (performedAll s l).strobed, (performedAll s l).lcd)
      = (writtenBytes l).foldl seen (s.expander, s.strobed, s.lcd) := by
  induction l generalizing s with
  | nil => rfl
  | cons a l ih =>
    rw [performedAll, ih]
    cases a <;> rfl

theorem performedAll_edge (l : List Action) (s : State) (hfit : ∀ a ∈ l, a.Fits s.params) :
    (performedAll s l).edge = s.edge + minCycles l := by
  induction l generalizing s with
  | nil => rfl
  | cons a l ih =>
    obtain ⟨-, he⟩ := performed_clock s (hfit a (by simp))
    rw [performedAll, ih _ fun b hb => by simpa using hfit b (by simp [hb]), minCycles_cons]
    show (performed s a).edge + minCycles l = _
    rw [he, Nat.add_assoc]

end Sys2Proof.Machine
end

