-- ==== Sys2Proof/Laws/Actions.lean ====
section
/-! SUPPORT. Facts about the action lists: their delays, their bytes, their phases; and about response words. -/

namespace Sys2Proof.Machine

/-! ## Bytes and phases of a list -/

theorem writtenBytes_append (l m : List Action) : writtenBytes (l ++ m) = writtenBytes l ++ writtenBytes m := by
  induction l with
  | nil => rfl
  | cons a l ih => cases a <;> simp [writtenBytes, ih]

theorem phaseAfter_append (p : Phase) (l m : List Action) :
    phaseAfter p (l ++ m) = phaseAfter (phaseAfter p l) m := by
  induction l generalizing p with
  | nil => rfl
  | cons a l ih => cases a <;> simp [phaseAfter, ih]

theorem take_succ_of_getElem? {l : List Action} {i : Nat} {a : Action} (h : l[i]? = some a) :
    l.take (i + 1) = l.take i ++ [a] := by
  rw [List.take_add_one, h]
  rfl

/-- No list writes more than 24 bytes (R26). -/
theorem writtenBytes_length_le (p : Params) (o : BitVec 2) (d : Byte) : (writtenBytes (actions p o d)).length ≤ 24 := by
  unfold actions
  split
  · simp [writtenBytes]
  · split
    · exact Nat.le_refl 24
    · exact Nat.le_of_ble_eq_true rfl

/-- The four bytes of SEND_BYTE (R92). -/
theorem writtenBytes_sendByte (p : Params) (b : Byte) (rs : Bool) :
    writtenBytes (sendByte p b rs) = [strobe (hiNibble b) rs, latch rs, strobe (loNibble b) rs, latch rs] := rfl

/-- A whole list takes its operation from its starting phase to Ready (R96, R98, R106). -/
theorem phaseAfter_actions (p : Params) {o : BitVec 2} (d : Byte) (h : o ≠ 0) :
    phaseAfter (startPhase o) (actions p o d) = .ready := by
  unfold actions startPhase
  rw [if_neg h]
  split <;> rfl

/-! ## Delays -/

theorem Params.Legal.delay_fits {p : Params} (h : p.Legal) {d : Nat}
    (hd : d = p.dStrobe ∨ d = p.dSettle ∨ d = p.dInit1 ∨ d = p.dInit2 ∨ d = p.dInit3) : 1 ≤ d ∧ d < 2 ^ p.dcntW := by
  obtain ⟨_, h⟩ := h
  obtain ⟨h1, h2, h3, h4, h5, h6⟩ := h.sized
  unfold Params.maxDelay at h6
  rcases hd with rfl | rfl | rfl | rfl | rfl <;> omega

theorem sendNibble_fits {p : Params} (h : p.Legal) (n : Nibble) (rs : Bool) : ∀ a ∈ sendNibble p n rs, a.Fits p := by
  intro a ha
  simp only [sendNibble, List.mem_cons, List.not_mem_nil, or_false] at ha
  rcases ha with rfl | rfl | rfl | rfl
  exacts [trivial, Params.Legal.delay_fits h (by simp), trivial, Params.Legal.delay_fits h (by simp)]

/-- Every delay of every list is one of the five of R8, so it fits `DCNT`. -/
theorem actions_fits {p : Params} (h : p.Legal) (o : BitVec 2) (d : Byte) : ∀ a ∈ actions p o d, a.Fits p := by
  have app : ∀ {l m : List Action}, (∀ a ∈ l, a.Fits p) → (∀ a ∈ m, a.Fits p) → ∀ a ∈ l ++ m, a.Fits p :=
    fun hl hm a ha => (List.mem_append.mp ha).elim (hl a) (hm a)
  have one : ∀ {a : Action}, a.Fits p → ∀ b ∈ [a], b.Fits p := fun ha b hb => by rwa [List.mem_singleton.mp hb]
  have nibble := sendNibble_fits h
  have byte : ∀ b rs, ∀ a ∈ sendByte p b rs, a.Fits p := fun b rs => app (nibble _ rs) (nibble _ rs)
  have wait : ∀ {w : Nat}, w = p.dInit1 ∨ w = p.dInit2 ∨ w = p.dInit3 → ∀ a ∈ initNibble p w, a.Fits p :=
    fun hw => app (nibble _ _) (one (Params.Legal.delay_fits h (.inr (.inr hw))))
  have phase : ∀ q, ∀ a ∈ [Action.phase q], a.Fits p := fun q => one trivial
  unfold actions
  split
  · simp
  · split
    · exact app (app (app (app (app (app (app (wait (.inl rfl)) (wait (.inr (.inl rfl)))) (wait (.inr (.inr rfl))))
        (phase _)) (nibble _ _)) (phase _)) (app (app (app (byte _ _) (byte _ _)) (byte _ _)) (byte _ _))) (phase _)
    · exact byte _ _

/-! ## The places of INIT's actions -/

/-- An action without its argument. -/
def Action.kind : Action → Action
  | .write _ => .write 0
  | .delay _ => .delay 0
  | .phase p => .phase p

/-- The kinds of INIT's 54 actions: they do not depend on the parameters (R104). -/
def initKinds : List Action := (initActions Params.ex).map Action.kind

theorem map_kind_initActions (p : Params) : (initActions p).map Action.kind = initKinds := rfl

theorem writtenBytes_length_kind (l : List Action) :
    (writtenBytes (l.map Action.kind)).length = (writtenBytes l).length := by
  induction l with
  | nil => rfl
  | cons a l ih => cases a <;> simp [Action.kind, writtenBytes, ih]

theorem phaseAfter_kind (q : Phase) (l : List Action) : phaseAfter q (l.map Action.kind) = phaseAfter q l := by
  induction l generalizing q with
  | nil => rfl
  | cons a l ih => cases a <;> simp [Action.kind, phaseAfter, ih]

/-! ## Response words -/

theorem respWord_eq_fields (c : Code) (k : BitVec 2) (i : Byte) :
    respWord c k i = c.bits ++ (k ++ (0b00 : BitVec 2)) ++ i := by
  have h : ∀ (a : BitVec 4) (k : BitVec 2), a ++ k ++ (0b00 : BitVec 2) = a ++ (k ++ (0b00 : BitVec 2)) := by decide
  exact congrArg (· ++ i) (h c.bits k)

theorem extractLsb'_rsvField (w : Word) (j : Nat) (hj : j ≤ 2) :
    (rsvField w).extractLsb' j 2 = w.extractLsb' (8 + j) 2 := by
  apply BitVec.eq_of_getLsbD_eq
  intro b hb
  simp only [rsvField, BitVec.getLsbD_extractLsb', hb, decide_true, Bool.true_and]
  simp [show j + b < 4 by omega, Nat.add_assoc]

@[simp] theorem respWord_code (c : Code) (k : BitVec 2) (i : Byte) : (respWord c k i).extractLsb' 12 4 = c.bits := by
  rw [respWord_eq_fields]
  exact opField_append ..

@[simp] theorem respWord_kind (c : Code) (k : BitVec 2) (i : Byte) : (respWord c k i).extractLsb' 10 2 = k := by
  rw [respWord_eq_fields, ← extractLsb'_rsvField _ 2 (by decide), rsvField_append]
  revert k
  decide

@[simp] theorem respWord_reserved (c : Code) (k : BitVec 2) (i : Byte) : (respWord c k i).extractLsb' 8 2 = 0b00 := by
  rw [respWord_eq_fields, ← extractLsb'_rsvField _ 0 (by decide), rsvField_append]
  revert k
  decide

@[simp] theorem respWord_info (c : Code) (k : BitVec 2) (i : Byte) : (respWord c k i).extractLsb' 0 8 = i := by
  rw [respWord_eq_fields]
  exact dataField_append ..

/-- A response has the form of R69 to R71 exactly when an error kind goes with BUS_ERROR and with no other code. -/
theorem responseWellFormed_respWord {c : Code} {k : BitVec 2} (h : k ≠ 0 ↔ c = .busError) (i : Byte) :
    responseWellFormed (respWord c k i) = true := by
  unfold responseWellFormed
  rw [respWord_code, respWord_kind, respWord_reserved]
  cases c <;> simp [Code.bits] at h ⊢ <;> exact h

/-! ## What the controller sees -/

/-- The wire fields of a strobe and of a latch byte (R58, R60). -/
@[simp] theorem wireEN_strobe (n : Nibble) (rs : Bool) : wireEN (strobe n rs) = true := by revert n rs; decide
@[simp] theorem wireEN_latch (rs : Bool) : wireEN (latch rs) = false := by revert rs; decide
@[simp] theorem wireNibble_strobe (n : Nibble) (rs : Bool) : wireNibble (strobe n rs) = n := by revert n rs; decide

/-- A strobe and a latch byte together latch their nibble once, at the falling edge of EN (R15, R114). -/
theorem seen_nibble (n u : Nibble) (rs : Bool) (e : Byte) (l : Lcd) :
    [strobe n rs, latch rs].foldl seen (e, u, l) = (latch rs, n, latchNibble l n) := by
  simp [seen, strobedAfter, observe]

end Sys2Proof.Machine
end

