-- ==== Sys2Proof/Laws/Params.lean ====
section
/-! SUPPORT. The check of the parameters is the constraint of R8, at every rational clock. -/

namespace Sys2Proof

theorem lastsAtLeast_iff {num den cycles part whole : Nat} (hn : 0 < num) (hd : 0 < den) (hw : 0 < whole) :
    lastsAtLeast num den cycles part whole = true ↔ (part / whole : ℝ) ≤ cycles / (num / den : ℝ) := by
  have hn' : (0 : ℝ) < num := by exact_mod_cast hn
  have hd' : (0 : ℝ) < den := by exact_mod_cast hd
  have hw' : (0 : ℝ) < whole := by exact_mod_cast hw
  rw [lastsAtLeast, decide_eq_true_eq, div_div_eq_mul_div, div_le_div_iff₀ hw' hn']
  exact_mod_cast Iff.rfl

theorem Params.wellFormed_iff (num den : Nat) (p : Params) :
    p.wellFormed num den = true ↔ 0 < num ∧ 0 < den ∧ p.LegalAt (num / den : ℝ) := by
  simp only [Params.wellFormed, Bool.and_eq_true, decide_eq_true_eq]
  constructor
  · rintro ⟨⟨⟨⟨⟨⟨⟨hn, hd⟩, hs⟩, h1⟩, h2⟩, h3⟩, h4⟩, h5⟩
    refine ⟨hn, hd, by positivity, hs, ?_, ?_, ?_, ?_, ?_⟩
    · exact_mod_cast (lastsAtLeast_iff hn hd (by decide)).mp h1
    · exact_mod_cast (lastsAtLeast_iff hn hd (by decide)).mp h2
    · exact_mod_cast (lastsAtLeast_iff hn hd (by decide)).mp h3
    · exact_mod_cast (lastsAtLeast_iff hn hd (by decide)).mp h4
    · exact_mod_cast (lastsAtLeast_iff hn hd (by decide)).mp h5
  · rintro ⟨hn, hd, h⟩
    refine ⟨⟨⟨⟨⟨⟨⟨hn, hd⟩, h.sized⟩, ?_⟩, ?_⟩, ?_⟩, ?_⟩, ?_⟩
    · exact (lastsAtLeast_iff hn hd (by decide)).mpr (by exact_mod_cast h.strobe)
    · exact (lastsAtLeast_iff hn hd (by decide)).mpr (by exact_mod_cast h.settle)
    · exact (lastsAtLeast_iff hn hd (by decide)).mpr (by exact_mod_cast h.init1)
    · exact (lastsAtLeast_iff hn hd (by decide)).mpr (by exact_mod_cast h.init2)
    · exact (lastsAtLeast_iff hn hd (by decide)).mpr (by exact_mod_cast h.init3)

end Sys2Proof
end

