-- ==== Sys2Proof/Laws/PerInstr.lean ====
section
/-! SUPPORT. Facts about every request as syntax, one lemma per constructor. -/

namespace Sys2Proof.Laws.EncodedRow

/-- The word of a request matches its row of the opcode table, and the row is in the table (R64). -/
def Statement (i : Instr) : Prop := i.row ∈ opcodeTable ∧ i.row.matchesWord (encode i) = true

theorem status : Statement .status := ⟨by decide, by decide⟩

theorem init : Statement .init := ⟨by decide, by decide⟩

theorem writeCommand (data : Byte) : Statement (.writeCommand data) :=
  ⟨List.mem_of_elem_eq_true rfl, by revert data; decide⟩

theorem writeData (data : Byte) : Statement (.writeData data) :=
  ⟨List.mem_of_elem_eq_true rfl, by revert data; decide⟩

end Sys2Proof.Laws.EncodedRow
end

