-- ==== Sys2Proof/Tests/Slice0.lean ====
section
/-! SUPPORT. The model's own tests, with values from 95_test_vectors.md and from the rules named beside them; and for every
obligation with hypotheses a witness: a concrete state and operands that meet them. -/

namespace Sys2Proof.Tests

open Sys2Proof Sys2Proof.Machine

/-! ## Decoding and encoding: words written out from R63 and R64 -/

theorem test_decode_status : decode (0b0000000000000000 : Word) = .legal .status := by decide

theorem test_decode_init : decode (0b0001000000000000 : Word) = .legal .init := by decide

/-- `OP = 0010`, `RSV = 0000`, `DATA = 00101000`. -/
theorem test_decode_write_command : decode (0b0010000000101000 : Word) = .legal (.writeCommand 0x28) := by decide

/-- `OP = 0011`, `RSV = 0000`, `DATA = 01001000`, the character H. -/
theorem test_decode_write_data : decode (0b0011000001001000 : Word) = .legal (.writeData 0x48) := by decide

theorem test_encode_words :
    [Instr.status, .init, .writeCommand 0x28, .writeData 0x48].map encode = [0x0000, 0x1000, 0x2028, 0x3048] := by decide

/-- The illegal words of V10. -/
theorem test_decode_illegal :
    ([0x5000, 0x2100, 0x0001, 0x10FF, 0xF0FF] : List Word).map decode
      = [.illegal .reservedOpcode, .illegal .nonzeroReserved, .illegal .nonzeroOperand, .illegal .nonzeroOperand,
         .illegal .reservedOpcode] := by decide

/-- The rows of spec/opcode_table.json, with an operand in the two that have one; a 17th bit belongs to no request. -/
theorem test_table_words :
    decodeTableWord 16 0x0000 = some .status ∧ decodeTableWord 16 0x1000 = some .init
    ∧ decodeTableWord 16 0x20C0 = some (.writeCommand 0xC0) ∧ decodeTableWord 16 0x30FF = some (.writeData 0xFF)
    ∧ decodeTableWord 16 0x4000 = none ∧ decodeTableWord 24 0x10000 = none := by decide

/-! ## Well-formedness: ill-formed terms are refused -/

/-- R73: "An immediate outside 0..255 is an assembly error". -/
theorem test_wf_immediate_256 :
    (Source.writeCommand (.number 256)).wellFormed = false ∧ (Source.writeData (.number 256)).wellFormed = false
    ∧ (Source.setDdram (.number 256)).wellFormed = false ∧ (Source.writeCommand (.number 255)).wellFormed = true := by
  decide

theorem test_wf_word_65536 : (Source.word 65536).wellFormed = false ∧ (Source.word 65535).wellFormed = true := by decide

/-- A character without an ASCII code (R73). -/
theorem test_wf_not_ascii :
    (Source.writeData (.character (Char.ofNat 233))).wellFormed = false
    ∧ (Source.writeStr ['H', Char.ofNat 233]).wellFormed = false ∧ (Source.writeStr ['H', 'i']).wellFormed = true := by
  decide

/-- `EX` at 1 kHz (R10), also written as 2000 / 2 Hz. -/
theorem test_wf_ex : Params.ex.wellFormed 1000 1 = true ∧ Params.ex.wellFormed 2000 2 = true := by decide

/-- R8: a stopped clock, a clock too fast for the delays (1001 Hz), a delay of no cycles, a delay below its bound, a counter one
bit too narrow. -/
theorem test_wf_illegal_parameters :
    Params.ex.wellFormed 0 1 = false ∧ Params.ex.wellFormed 1000 0 = false ∧ Params.ex.wellFormed 1001 1 = false
    ∧ ({ Params.ex with dStrobe := 0 }).wellFormed 1000 1 = false
    ∧ ({ Params.ex with dSettle := 4 }).wellFormed 1000 1 = false
    ∧ ({ Params.ex with dInit1 := 4 }).wellFormed 1000 1 = false
    ∧ ({ Params.ex with dInit2 := 4 }).wellFormed 1000 1 = false
    ∧ ({ Params.ex with dInit3 := 0 }).wellFormed 1000 1 = false
    ∧ ({ Params.ex with dcntW := 2 }).wellFormed 1000 1 = false := by decide

/-- R8: `F_CLK` is a real: `EX` is legal at 100 times the root of 2 hertz, and at no clock above 1 kHz. -/
theorem test_real_clock : Params.ex.LegalAt (100 * Real.sqrt 2) ∧ ∀ f : ℝ, 1000 < f → ¬ Params.ex.LegalAt f := by
  have h0 : 0 < 100 * Real.sqrt 2 := by positivity
  have h1 : Real.sqrt 2 ≤ 2 := by
    rw [Real.sqrt_le_left (by norm_num)]
    norm_num
  refine ⟨⟨h0, by decide, ?_, ?_, ?_, ?_, ?_⟩, fun f hf h => ?_⟩
  iterate 5
    rw [le_div_iff₀ h0]
    norm_num [Params.ex]
    linarith
  · have h := h.strobe
    rw [le_div_iff₀ (by linarith)] at h
    norm_num [Params.ex] at h
    linarith

/-- Program P1's lines and `SET_DDRAM 0x40` of P3 (R73, R74). -/
theorem test_assembler :
    assembleProgram [.status, .init, .writeStr ['H', 'i'], .setDdram (.number 0x40), .clear, .home, .word 0x5000]
      = some [0x0000, 0x1000, 0x3048, 0x3069, 0x20C0, 0x2001, 0x2002, 0x5000] := by decide

/-! ## A bench: the parameter set `EX`, an environment that serves at every edge, and a transport that keeps R156 -/

/-- An edge that serves the block whatever it waits for, with no request. -/
def calm : Pins where
  rst          := false
  reqValid     := false
  reqWord      := 0
  respReady    := true
  busReqReady  := true
  busRespValid := true
  busRespErr   := 0b00

/-- An edge at which the transport does nothing. -/
def quiet : Pins := { calm with busReqReady := false, busRespValid := false, busRespErr := 0b11 }

/-- A transport that keeps R156, for a list of actions: each write is accepted after `w` edges, and its one pulse comes after `w` more.
It does nothing at any other edge. -/
def pulsed (w : Nat) (l : List Action) : List Pins :=
  l.flatMap fun
    | .write _ =>
      List.replicate w quiet ++ [{ quiet with busReqReady := true }]
      ++ List.replicate w quiet ++ [{ quiet with busRespValid := true, busRespErr := 0b00 }]
    | .delay d => List.replicate (max d 1) quiet
    | .phase _ => [quiet]

/-- After reset, with the inputs `ps` to come and an LCD in 8-bit mode. -/
def bench (ps : List Pins) : State :=
  { State.resetWith Params.ex with inputs := ps, expander := 0x00, strobed := 0x0, lcd := .e8 }

/-- The "Ready state" of 95_test_vectors.md. -/
def ready (ps : List Pins) : State :=
  { bench ps with
    phase := .ready, op := 1, act := 54, dcnt := 1, wcnt := 24, outb := 0x08, resp := 0x0018
    expander := 0x08, lcd := .f4h }

/-- In the middle of an operation: action `i` of its list in sequencer state `q`, everything before it done. -/
def during (op : BitVec 2) (d : Byte) (i : Nat) (q : Seq) (cnt : Nat) (ps : List Pins) : State :=
  let l := actions Params.ex op d
  { bench ps with
    op := op, dbyte := d, act := BitVec.ofNat 6 i, seq := q, dcnt := cnt
    phase := phaseAfter (startPhase op) (l.take i)
    wcnt := BitVec.ofNat 8 (writtenBytes (l.take i)).length
    outb := (writtenBytes (l.take (i + 1))).getLastD 0
    busTrace := ((writtenBytes (l.take (if q = .await then i + 1 else i))).map fun b => ⟨0, 0x27, b⟩).reverse }

/-- The next state of a step, if there is one. -/
def after (s : State) : Option State :=
  match step s with
  | .next t => some t
  | .fault _ => none
  | .refused _ => none

/-! ## One step of each request -/

/-- V12: STATUS after reset; the step is the first after `State.reset` itself. -/
theorem test_status_after_reset : (after (State.reset.withFetchWord 16 0x0000)).map State.resp = some 0x0008 := by decide

/-- R124: "After INIT fails on write 6 it gives `0x000D`". -/
theorem test_status_after_failure :
    (after (({ bench [] with failed := true, phase := .eightBitTransition }).withFetchWord 16 0x0000)).map State.resp
      = some 0x000D := by decide

/-- R104, V8: INIT starts with the first strobe, `0x3C`. -/
theorem test_init_starts :
    (after (State.reset.withFetchWord 16 0x1000)).map (fun t => (t.seq, t.outb, t.op)) = some (.issue, 0x3C, 1) := by
  decide

/-- P2: a second INIT answers `0x300B`. -/
theorem test_init_in_ready : (after ((ready []).withFetchWord 16 0x1000)).map State.resp = some 0x300B := by decide

/-- V4: WRITE_COMMAND 0x28 starts with `0x2C`. -/
theorem test_write_command_starts :
    (after ((ready []).withFetchWord 16 0x2028)).map (fun t => (t.seq, t.outb, t.dbyte)) = some (.issue, 0x2C, 0x28) := by
  decide

/-- P2: WRITE_COMMAND before INIT answers `0x2008`. -/
theorem test_write_command_not_ready :
    (after (State.reset.withFetchWord 16 0x2001)).map State.resp = some 0x2008 := by decide

/-- V2, edge e0: WRITE_DATA 0x48. -/
theorem test_write_data_starts :
    (after ((ready []).withFetchWord 16 0x3048)).map (fun t => (t.seq, t.act, t.dcnt, t.wcnt, t.outb))
      = some (.issue, 0, 1, 0, 0x4E) := by decide

/-- P3: WRITE_DATA after a bus error in Ready answers `0x400F`. -/
theorem test_write_data_failed :
    (after (({ ready [] with failed := true }).withFetchWord 16 0x3041)).map State.resp = some 0x400F := by decide

/-- P4: `.word 0x5000` answers `0x5008`, and `0xF0FF` answers `0x500D` while the block has failed. -/
theorem test_illegal_words :
    (after (State.reset.withFetchWord 16 0x5000)).map State.resp = some 0x5008
    ∧ (after (({ bench [] with failed := true, phase := .eightBitTransition }).withFetchWord 16 0xF0FF)).map State.resp
      = some 0x500D := by decide

/-! ## The other arms of the sequencer -/

/-- V2, edge e1: the transport takes write 0. -/
theorem test_issue : (after (during 3 0x48 0 .issue 1 [calm])).map (fun t => (t.seq, t.busTrace.map BusWrite.data))
    = some (.await, [0x4E]) := by decide

/-- V2, edge e5: OK for write 1, then `D(D_SETTLE = 5)`. -/
theorem test_await_ok : (after (during 3 0x48 2 .await 1 [calm])).map (fun t => (t.seq, t.act, t.dcnt, t.wcnt, t.outb))
    = some (.delay, 3, 5, 2, 0x0A) := by decide

/-- V7, k = 1: NACK for the second of four writes. -/
theorem test_await_nack :
    (after (during 2 0x28 2 .await 1 [{ calm with busRespErr := 0b01 }])).map
        (fun t => (t.seq, t.failed, t.resp, t.act, t.wcnt, t.outb))
      = some (.respond, true, 0x1401, 2, 1, 0x08) := by decide

/-- V2, edge e10: the delay ends and the third byte goes out. -/
theorem test_delay_ends : (after (during 3 0x48 3 .delay 1 [calm])).map (fun t => (t.seq, t.act, t.wcnt, t.outb))
    = some (.issue, 4, 2, 0x8E) := by decide

/-- V2, edge e20: the last delay ends and the response is `0x0004`. -/
theorem test_operation_ends : (after (during 3 0x48 7 .delay 1 [calm])).map (fun t => (t.seq, t.act, t.resp))
    = some (.respond, 8, 0x0004) := by decide

/-- R108: the first `P` action. -/
theorem test_phase_action : (after (during 1 0x00 15 .setph 1 [calm])).map (fun t => (t.phase, t.seq, t.act, t.outb))
    = some (.eightBitTransition, .issue, 16, 0x2C) := by decide

/-- V12: a reset edge during INIT. -/
theorem test_reset_edge :
    (after (during 1 0x00 3 .delay 1 [{ calm with rst := true }])).map
        (fun t => (t.seq, t.act, t.dcnt, t.wcnt, t.outb))
      = some (.idle, 0, 0, 0, 0x00) := by decide

/-! ## Wire bytes and action lists -/

/-- S1, V1: nibble 0x5 with RS = 1. -/
theorem test_nibble_5 : writtenBytes (sendNibble Params.ex 0x5 true) = [0x5E, 0x0A] := by decide

/-- S2: the character H as data. -/
theorem test_bytes_of_H : writtenBytes (actions Params.ex 3 0x48) = [0x4E, 0x0A, 0x8E, 0x0A] := by decide

/-- V8. -/
theorem test_bytes_of_init :
    writtenBytes (initActions Params.ex)
      = [0x3C, 0x08, 0x3C, 0x08, 0x3C, 0x08, 0x2C, 0x08, 0x2C, 0x08, 0x8C, 0x08, 0x0C, 0x08, 0xFC, 0x08,
         0x0C, 0x08, 0x1C, 0x08, 0x0C, 0x08, 0x6C, 0x08] := by decide

/-- V14. -/
theorem test_fewest_cycles : minCycles (initActions Params.ex) = 134 ∧ minCycles (actions Params.ex 2 0x28) = 20 := by
  decide

/-- R115: the row `F4L(h)`, h = 0x2, nibble by nibble. -/
theorem test_controller :
    latchNibble (.f4l 0x2) 0x3 = .f4h ∧ latchNibble .f4h 0x3 = .f4l 0x3
    ∧ latchNibble (.f4l 0x3) 0x3 = .e8 ∧ latchNibble .e8 0x2 = .f4h := by decide

/-- R164: the strobe byte's nibble is latched whichever outputs change first: here the nibble lines, then EN. -/
theorem test_settling :
    settle 0xF0 (strobe 0x5 false) (latch false) = 0x0C
    ∧ observe 0x0C (latch false) 0x5 (observe (strobe 0x5 false) 0x0C 0x5 .f4h) = .f4l 0x5
    ∧ (during 2 0x57 0 .await 1 []).delivered.strobed = 0x5 := by decide

/-! ## A check of the invariant, for the witnesses -/

def performsCheck (s : State) : Bool :=
  match s.actionList[s.act.toNat]? with
  | some (.write b) => (s.seq == .issue || s.seq == .await) && s.outb == b
  | some (.delay d) => s.seq == .delay && decide (1 ≤ s.dcnt ∧ s.dcnt ≤ d)
  | some (.phase _) => s.seq == .setph
  | none => false

def progressCheck (s : State) : Bool :=
  !s.failed && s.op != 0 && performsCheck s
  && s.wcnt.toNat == (writtenBytes (s.actionList.take s.act.toNat)).length
  && s.phase == phaseAfter (startPhase s.op) (s.actionList.take s.act.toNat)
  && s.issued == writtenBytes (s.actionList.take s.act.toNat) ++ (if s.seq = .await then [s.outb] else [])

def invCheck (s : State) : Bool :=
  decide (s.params = Params.ex) && decide (s.dcnt < 2 ^ s.params.dcntW) && (!s.seq.running || progressCheck s)
  && (s.seq.running || s.failed || s.phase == .uninitialized || s.phase == .ready) && responseWellFormed s.resp
  && s.busTrace.all fun w => w.addr == s.params.devAddr && decide (w.data ∈ wireBytes)

theorem performs_of_check {s : State} (h : performsCheck s = true) :
    ∃ a, s.actionList[s.act.toNat]? = some a ∧ s.Performs a := by
  unfold performsCheck at h
  split at h
  · next b hb => exact ⟨_, hb, by simpa [State.Performs] using h⟩
  · next d hd => exact ⟨_, hd, by simpa [State.Performs] using h⟩
  · next p hp => exact ⟨_, hp, by simpa [State.Performs] using h⟩
  · cases h

theorem inv_of_check {s : State} (h : invCheck s = true) : s.Inv := by
  simp only [invCheck, Bool.and_eq_true, Bool.or_eq_true, decide_eq_true_eq, List.all_eq_true, beq_iff_eq,
    Bool.not_eq_true'] at h
  obtain ⟨⟨⟨⟨⟨h1, h2⟩, h3⟩, h4⟩, h5⟩, h6⟩ := h
  refine ⟨h1 ▸ ⟨_, Params.ex_legalAt⟩, h2, fun hr => ?_, fun hr hf => ?_, h5, fun w hw => h6 w hw⟩
  · have h3 := h3.resolve_left (by simp [hr])
    simp only [progressCheck, Bool.and_eq_true, beq_iff_eq, bne_iff_ne, Bool.not_eq_true'] at h3
    obtain ⟨⟨⟨⟨⟨g1, g2⟩, g3⟩, g4⟩, g5⟩, g6⟩ := h3
    exact ⟨g1, g2, performs_of_check g3, g4, g5, g6⟩
  · rcases h4 with ((h4 | h4) | h4) | h4
    · rw [hr] at h4; cases h4
    · rw [hf] at h4; cases h4
    · exact .inl h4
    · exact .inr h4

theorem calm_noReset {s : State} {n : Nat} (h : s.inputs = List.replicate n calm) : s.NoReset n := by
  intro k hk
  simp [State.pinsAt, h, hk, calm]

/-- `p` holds of the states of a run before each of its first `n` edges. -/
def runCheck (p : State → Bool) : Nat → State → Bool
  | 0, _ => true
  | n + 1, s => p s && match step s with
    | .next t => runCheck p n t
    | _ => true

theorem of_runCheck {p : State → Bool} {n : Nat} {s : State} (h : runCheck p n s = true) :
    ∀ k, k < n → ∀ t, runSteps k s = .next t → p t = true := by
  induction n generalizing s with
  | zero => exact fun _ hk => absurd hk (Nat.not_lt_zero _)
  | succ n ih =>
    simp only [runCheck, Bool.and_eq_true] at h
    intro k hk t ht
    cases k with
    | zero => cases ht; exact h.1
    | succ k =>
      cases hs : step s with
      | next u =>
        rw [runSteps_succ hs] at ht
        exact ih (by simpa [hs] using h.2) k (Nat.lt_of_succ_lt_succ hk) t ht
      | fault r => simp [runSteps, hs] at ht
      | refused r => simp [runSteps, hs] at ht

/-! ## Witnesses: encodings -/

/-- One word at each edge of each clause's range. -/
theorem witness_DecoderOfEveryWord :
    (∀ w ∈ ([0x0100, 0x2100, 0xFFFF] : List Word), w.toNat / 256 % 16 ≠ 0)
    ∧ (∀ w ∈ ([0x0000] : List Word), w.toNat / 256 % 16 = 0 ∧ w.toNat / 4096 = 0 ∧ w.toNat % 256 = 0)
    ∧ (∀ w ∈ ([0x1000] : List Word), w.toNat / 256 % 16 = 0 ∧ w.toNat / 4096 = 1 ∧ w.toNat % 256 = 0)
    ∧ (∀ w ∈ ([0x2000, 0x20FF] : List Word), w.toNat / 256 % 16 = 0 ∧ w.toNat / 4096 = 2)
    ∧ (∀ w ∈ ([0x3000, 0x30FF] : List Word), w.toNat / 256 % 16 = 0 ∧ w.toNat / 4096 = 3)
    ∧ (∀ w ∈ ([0x0001, 0x00FF, 0x1001, 0x10FF] : List Word), w.toNat / 4096 ≤ 1 ∧ w.toNat % 256 ≠ 0)
    ∧ (∀ w ∈ ([0x4000, 0xF000, 0xFFFF] : List Word), 4 ≤ w.toNat / 4096) := by simp

theorem witness_DecodeAndEncodeAgree :
    (Instr.writeData 0xFF).wellFormed = true ∧ decode 0x2000 = .legal (.writeCommand 0x00) := by decide

theorem witness_RequestsAreTheTableRows :
    decode 0x30A5 = .legal (.writeData 0xA5) ∧ ∃ r ∈ opcodeTable, r.matchesWord 0x30A5 = true := by decide

/-- The edges of the ranges: 0, 255 and 256 for a byte, characters 0, 127 and 128, 127 and 128 for `SET_DDRAM`, 0xFFFF and 0x10000
for a word. -/
theorem witness_AssemblerLines :
    assemble (.writeCommand (.number 0)) = some [0x2000] ∧ assemble (.writeCommand (.number 255)) = some [0x20FF]
    ∧ assemble (.writeData (.number 256)) = none ∧ assemble (.setDdram (.number 256)) = none
    ∧ ((Char.ofNat 0).toNat < 128 ∧ (Char.ofNat 127).toNat < 128 ∧ 128 ≤ (Char.ofNat 128).toNat)
    ∧ assemble (.writeCommand (.character 'H')) = some [0x2048]
    ∧ assemble (.setDdram (.number 127)) = some [0x20FF] ∧ assemble (.setDdram (.number 128)) = some [0x2080]
    ∧ assemble (.word 0xFFFF) = some [0xFFFF] ∧ assemble (.word 0x10000) = none := by decide

theorem witness_EmittedBytesAreThe34 :
    (0xFE : Byte) ∈ writtenBytes (actions Params.ex opWriteData 0x0F) ∧ (0x0A : Byte) ∈ wireBytes := by decide

theorem ex_legal : Params.ex.Legal := ⟨_, Params.ex_legalAt⟩

theorem witness_InitList : Params.ex.Legal := ex_legal

/-! ## Witnesses: requests -/

/-- The word `w` at the request port. -/
def asking (w : Word) : Pins := { calm with reqValid := true, reqWord := w }

theorem witness_StepRunsTheDecodedRequest :
    ∃ (s : State) (i : Instr), s.seq = .idle ∧ s.pins.rst = false ∧ s.pins.reqValid = true
      ∧ decode s.pins.reqWord = .legal i :=
  ⟨ready [asking 0x3048], .writeData 0x48, rfl, rfl, rfl, by decide⟩

theorem witness_WithFetchWordRunsTheRequest : decode 0x20C0 = .legal (.writeCommand 0xC0) := by decide

/-- One state for each clause: an illegal word, STATUS, a request after a failure, INIT in Ready, a write before it, INIT and a
write that start. -/
theorem witness_AcceptFollowsThePrecedence :
    (∀ s ∈ [ready [asking 0x5000], ready [asking 0x0000], ready [asking 0x1000], ready [asking 0x20FF],
        bench [asking 0x3041], bench [asking 0x1000]],
      s.seq = .idle ∧ s.pins.rst = false ∧ s.pins.reqValid = true ∧ s.failed = false)
    ∧ decode 0x5000 = .illegal .reservedOpcode ∧ decode 0x0000 = .legal .status
    ∧ (({ ready [asking 0x1000] with failed := true } : State).failed = true ∧ decode 0x1000 = .legal .init
        ∧ Instr.init ≠ .status)
    ∧ (ready [asking 0x1000]).phase ≠ .uninitialized
    ∧ (decode 0x3041 = .legal (.writeData 0x41) ∧ (bench [asking 0x3041]).phase ≠ .ready)
    ∧ (bench [asking 0x1000]).phase = .uninitialized
    ∧ (decode 0x20FF = .legal (.writeCommand 0xFF) ∧ (ready [asking 0x20FF]).phase = .ready) := by decide

/-- One word at the edge of each of the three ranges. -/
theorem witness_IllegalWordsAreAnswered :
    (∀ w : Word, (bench [asking w]).seq = .idle ∧ (bench [asking w]).pins.rst = false
      ∧ (bench [asking w]).pins.reqValid = true ∧ (bench [asking w]).pins.reqWord = w)
    ∧ 4 ≤ (0x4000 : Word).toNat / 4096 ∧ (0x0100 : Word).toNat / 256 % 16 ≠ 0
    ∧ ((0x10FF : Word).toNat / 4096 ≤ 1 ∧ (0x10FF : Word).toNat % 256 ≠ 0) :=
  ⟨fun _ => ⟨rfl, rfl, rfl, rfl⟩, by simp⟩

theorem witness_StatusCompletesInEveryState :
    (bench []).seq = .idle ∧ ({ ready [] with failed := true } : State).seq = .idle := by decide

/-- The accepted INIT, before a transport that keeps R156. -/
def initStarted : State :=
  { bench (pulsed 0 (actions Params.ex 1 0)) with op := 1, dbyte := 0, act := 0, wcnt := 0, outb := 0x3C, seq := .issue }

theorem initStarted_immediate : initStarted.Immediate 134 := of_runCheck (by decide)

theorem witness_InitRunsToCompletion :
    ∃ (s t : State) (n : Nat), s.params.Legal ∧ s.seq = .idle ∧ s.failed = false ∧ s.phase = .uninitialized
      ∧ n = 48 + 12 * (s.params.dStrobe + s.params.dSettle) + s.params.dInit1 + s.params.dInit2 + s.params.dInit3 + 3
      ∧ t = { s with op := 1, dbyte := 0, act := 0, wcnt := 0, outb := 0x3C, seq := .issue } ∧ t.Immediate n :=
  ⟨bench (pulsed 0 (actions Params.ex 1 0)), _, 134, ex_legal, rfl, rfl, rfl, rfl, rfl, initStarted_immediate⟩

theorem witness_WriteCommandRunsToCompletion :
    ∃ (s t : State) (d : Byte) (n : Nat), s.params.Legal ∧ s.seq = .idle ∧ s.failed = false ∧ s.phase = .ready
      ∧ n = 8 + 2 * (s.params.dStrobe + s.params.dSettle)
      ∧ t = { s with op := 2, dbyte := d, act := 0, wcnt := 0, outb := (d &&& 0xF0) ||| 0x0C, seq := .issue }
      ∧ t.Immediate n :=
  ⟨ready (pulsed 0 (actions Params.ex 2 0x2F)), _, 0x2F, 20, ex_legal, rfl, rfl, rfl, rfl, rfl, of_runCheck (by decide)⟩

theorem witness_WriteDataRunsToCompletion :
    ∃ (s t : State) (d : Byte) (n : Nat), s.params.Legal ∧ s.seq = .idle ∧ s.failed = false ∧ s.phase = .ready
      ∧ n = 8 + 2 * (s.params.dStrobe + s.params.dSettle)
      ∧ t = { s with op := 3, dbyte := d, act := 0, wcnt := 0, outb := (d &&& 0xF0) ||| 0x0E, seq := .issue }
      ∧ t.Immediate n :=
  ⟨ready (pulsed 0 (actions Params.ex 3 0x48)), _, 0x48, 20, ex_legal, rfl, rfl, rfl, rfl, rfl, of_runCheck (by decide)⟩

/-- A start (`SEQ` becomes ISSUE) and an answer (`SEQ` becomes RESPOND). -/
theorem witness_ExecFrame :
    (∃ t, exec (.writeData 0x48) (ready []) = .next t ∧ t.seq ≠ .respond)
    ∧ ∃ t, exec .init (ready []) = .next t ∧ t.seq ≠ .issue :=
  ⟨⟨_, rfl, nofun⟩, ⟨_, rfl, nofun⟩⟩

theorem witness_AnswersChangeOnlyRespAndSeq :
    ∃ s t : State, s.seq = .idle ∧ s.pins.rst = false ∧ s.pins.reqValid = true ∧ step s = .next t ∧ t.seq = .respond :=
  ⟨ready [asking 0x1000], _, rfl, rfl, rfl, rfl, rfl⟩

theorem witness_BusyRequestHasNoEffect : (during 2 0x28 0 .issue 1 [asking 0x3041]).seq ≠ .idle := by decide

/-- One edge in RESPOND, at which the host takes the response and goes on presenting its next request. -/
theorem witness_HeldRequestIsAccepted :
    ∃ (n : Nat) (s u : State), s.pins.reqValid = true ∧ s.NoReset (n + 1) ∧ runSteps n s = .next u
      ∧ (∀ k, k < n → ∃ v, runSteps k s = .next v ∧ v.seq ≠ .idle ∧ v.HostHolds) ∧ u.seq = .idle := by
  refine ⟨1, { ready [asking 0x3048, asking 0x3048] with seq := .respond }, _, rfl, ?_, rfl, ?_, rfl⟩
  · show ∀ k, k < 2 → _
    decide
  · intro k hk
    obtain rfl : k = 0 := by omega
    exact ⟨_, rfl, nofun, fun _ _ => ⟨rfl, rfl⟩⟩

/-! ## Witnesses: the sequencer -/

/-- A state in RESPOND. -/
def answering (ps : List Pins) : State := { ready ps with seq := .respond }

/-- One state for each clause, with `DCNT` at 1 and 2 where the clauses on it meet. -/
theorem witness_SequencerArms :
    ∀ x ∈ ([ (bench [asking 0x0000], fun s => s.seq == .idle && s.pins.reqValid)
           , (bench [calm], fun s => s.seq == .idle && !s.pins.reqValid)
           , (during 2 0x28 0 .issue 1 [calm], fun s => s.seq == .issue && s.pins.busReqReady)
           , (during 2 0x28 0 .issue 1 [{ calm with busReqReady := false }],
               fun s => s.seq == .issue && !s.pins.busReqReady)
           , (during 2 0x28 0 .await 1 [calm],
               fun s => s.seq == .await && s.pins.busRespValid && s.pins.busRespErr == 0b00)
           , (during 2 0x28 0 .await 1 [{ calm with busRespErr := 0b01 }],
               fun s => s.seq == .await && s.pins.busRespValid && s.pins.busRespErr != 0b00)
           , (during 2 0x28 0 .await 1 [{ calm with busRespValid := false }],
               fun s => s.seq == .await && !s.pins.busRespValid)
           , (during 2 0x28 3 .delay 1 [calm], fun s => s.seq == .delay && decide (s.dcnt ≤ 1))
           , (during 2 0x28 3 .delay 2 [calm], fun s => s.seq == .delay && decide (1 < s.dcnt))
           , (during 1 0x00 15 .setph 1 [calm],
               fun s => s.seq == .setph && s.actionList[s.act.toNat]? == some (.phase .eightBitTransition))
           , (answering [calm], fun s => s.seq == .respond && s.pins.respReady)
           , (answering [{ calm with respReady := false }], fun s => s.seq == .respond && !s.pins.respReady) ]
          : List (State × (State → Bool))),
      x.1.pins.rst = false ∧ x.2 x.1 = true := by decide

/-- The last action of a list, and before a write, a delay and a phase. -/
theorem witness_AdvanceEntersTheNextAction :
    (∃ s : State, s.act.toNat + 1 = s.actionList.length)
    ∧ (∃ (s : State) (b : Byte), s.actionList[s.act.toNat + 1]? = some (.write b))
    ∧ (∃ (s : State) (d : Nat), s.actionList[s.act.toNat + 1]? = some (.delay d) ∧ d < 2 ^ s.params.dcntW)
    ∧ ∃ (s : State) (p : Phase), s.actionList[s.act.toNat + 1]? = some (.phase p) :=
  ⟨⟨during 2 0x28 7 .delay 1 [], rfl⟩, ⟨during 2 0x28 1 .delay 1 [], 0x08, rfl⟩,
    ⟨during 2 0x28 2 .await 1 [], 5, rfl, by decide⟩, ⟨during 1 0x00 14 .delay 1 [], .eightBitTransition, rfl⟩⟩

/-- Two edges of each of the four waits. -/
theorem witness_WaitsKeepEveryRegister :
    (∃ s : State, s.NoReset 2 ∧ s.seq = .respond ∧ ∀ k, k < 2 → (s.pinsAt k).respReady = false)
    ∧ (∃ s : State, s.NoReset 2 ∧ s.seq = .idle ∧ ∀ k, k < 2 → (s.pinsAt k).reqValid = false)
    ∧ (∃ s : State, s.NoReset 2 ∧ s.seq = .issue ∧ ∀ k, k < 2 → (s.pinsAt k).busReqReady = false)
    ∧ ∃ s : State, s.NoReset 2 ∧ s.seq = .await ∧ ∀ k, k < 2 → (s.pinsAt k).busRespValid = false := by
  refine ⟨⟨answering (List.replicate 2 { calm with respReady := false }), ?_, rfl, by decide⟩,
    ⟨ready (List.replicate 2 calm), ?_, rfl, by decide⟩,
    ⟨during 2 0x28 0 .issue 1 (List.replicate 2 { calm with busReqReady := false }), ?_, rfl, by decide⟩,
    ⟨during 2 0x28 0 .await 1 (List.replicate 2 { calm with busRespValid := false }), ?_, rfl, by decide⟩⟩ <;>
    (show ∀ k, k < 2 → _; decide)

/-- `DCNT` at 0, at 1 and at 5. -/
theorem witness_DelayTakesExactlyItsCycles :
    ∀ d ∈ [0, 1, 5], (during 3 0x48 3 .delay d (List.replicate (max d 1) calm)).seq = .delay
      ∧ (during 3 0x48 3 .delay d (List.replicate (max d 1) calm)).NoReset (max d 1) :=
  fun _ _ => ⟨rfl, calm_noReset rfl⟩

/-- The latch write of the high nibble, its settle delay and the next strobe. -/
theorem witness_GapBetweenWritesIsTheDelay :
    ∃ (s : State) (d : Nat) (b : Byte), s.seq = .await ∧ s.pins.busRespValid = true ∧ s.pins.busRespErr = 0b00
      ∧ s.actionList[s.act.toNat + 1]? = some (.delay d) ∧ s.actionList[s.act.toNat + 2]? = some (.write b)
      ∧ 1 ≤ d ∧ d < 2 ^ s.params.dcntW ∧ s.NoReset (d + 1) :=
  ⟨during 3 0x48 2 .await 1 (List.replicate 6 calm), 5, 0x8E, rfl, rfl, rfl, rfl, rfl, by decide, by decide, calm_noReset rfl⟩

theorem witness_PhaseActionTakesOneEdge :
    ∀ s ∈ [during 1 0x00 15 .setph 1 [calm], during 1 0x00 20 .setph 1 [calm], during 1 0x00 53 .setph 1 [calm]],
      invCheck s = true ∧ s.pins.rst = false ∧ s.seq = .setph
      ∧ ∃ p ∈ [Phase.eightBitTransition, .fourBitMode, .ready], s.actionList[s.act.toNat]? = some (.phase p) := by
  decide

/-- One state for each clause. -/
theorem witness_HandshakesCompleteAndHold :
    ∀ x ∈ ([ (during 2 0x28 0 .issue 1 [{ calm with busReqReady := false }],
               fun s => (s.outputs false).busReqValid && !s.pins.busReqReady && !(s.outputs false).reqReady)
           , (during 2 0x28 0 .issue 1 [calm], fun s => (s.outputs false).busReqValid && s.pins.busReqReady)
           , (answering [{ calm with respReady := false }],
               fun s => (s.outputs false).respValid && !s.pins.respReady)
           , (answering [calm], fun s => (s.outputs false).respValid && s.pins.respReady)
           , (ready [asking 0x0000], fun s => (s.outputs false).reqReady && s.pins.reqValid)
           , (ready [calm], fun s => (s.outputs false).reqReady && !s.pins.reqValid) ]
          : List (State × (State → Bool))),
      x.1.pins.rst = false ∧ (after x.1).isSome = true ∧ x.2 x.1 = true := by decide

/-- In ISSUE, the cycle of the request handshake. -/
theorem witness_StrayResponseIsIgnored : (during 2 0x28 0 .issue 1 []).seq ≠ .await := by decide

/-! ## Witnesses: errors and reset -/

/-- Each of the three error kinds, at the last write of an operation. -/
theorem witness_AbortLatchesTheFailure :
    (∀ k ∈ ([0b01, 0b10, 0b11] : List (BitVec 2)),
      (during 2 0x28 6 .await 1 [{ calm with busRespErr := k }]).seq = .await
      ∧ (during 2 0x28 6 .await 1 [{ calm with busRespErr := k }]).pins.rst = false
      ∧ (during 2 0x28 6 .await 1 [{ calm with busRespErr := k }]).pins.busRespValid = true
      ∧ (during 2 0x28 6 .await 1 [{ calm with busRespErr := k }]).pins.busRespErr = k ∧ k ≠ 0b00)
    ∧ ∃ t : State, step (during 2 0x28 6 .await 1 ({ calm with busRespErr := 0b01 } :: List.replicate 3 calm)) = .next t
      ∧ t.NoReset 3 :=
  ⟨by decide, ⟨_, rfl, calm_noReset rfl⟩⟩

/-- A reset edge, an edge without one, and a failed block in IDLE. -/
theorem witness_FailedIsSticky :
    ((bench [{ calm with rst := true }]).pins.rst = true ∧ (after (bench [{ calm with rst := true }])).isSome = true)
    ∧ ((bench [calm]).pins.rst = false ∧ (after (bench [calm])).isSome = true)
    ∧ (({ ready [] with failed := true } : State).seq = .idle ∧ ({ ready [] with failed := true } : State).failed = true
        ∧ Instr.init ≠ .status) := by decide

theorem witness_FailedBlockWritesNothing :
    ∃ (n : Nat) (s : State), s.failed = true ∧ s.seq.running = false ∧ s.NoReset n :=
  ⟨3, { ready (List.replicate 3 (asking 0x3041)) with failed := true, seq := .respond }, rfl, rfl, by
    show ∀ k, k < 3 → _
    decide⟩

/-- A reset edge in Ready, and the edge of each of the three `P` actions. -/
theorem witness_PhaseOnlyMovesForward :
    (invCheck (ready [{ calm with rst := true }]) = true ∧ (ready [{ calm with rst := true }]).pins.rst = true
      ∧ (after (ready [{ calm with rst := true }])).isSome = true)
    ∧ ∀ s ∈ [during 1 0x00 15 .setph 1 [calm], during 1 0x00 20 .setph 1 [calm], during 1 0x00 53 .setph 1 [calm]],
      invCheck s = true ∧ s.pins.rst = false ∧ (after s).map State.phase ≠ some s.phase ∧ (after s).isSome = true := by
  decide

/-- NACK for the writes where the clauses meet: 0, 5, 6, 7, 8 and 23. -/
theorem witness_PhaseAfterAFailedInit :
    ∀ x ∈ [(0, 0), (12, 5), (16, 6), (18, 7), (21, 8), (51, 23)],
      let s := during 1 0x00 x.1 .await 1 [{ calm with busRespErr := 0b01 }]
      invCheck s = true ∧ s.op = opInit ∧ s.seq = .await ∧ s.pins.rst = false ∧ s.pins.busRespValid = true
      ∧ s.pins.busRespErr ≠ 0b00 ∧ (after s).isSome = true ∧ s.wcnt.toNat = x.2 := by decide

theorem witness_ResetEdgeResetsEveryRegister : (ready [{ calm with rst := true }]).pins.rst = true := by decide

theorem witness_ResetStateValues :
    ∃ s t : State, s.pins.rst = true ∧ step s = .next t :=
  ⟨during 1 0x00 3 .delay 1 [{ calm with rst := true }], _, rfl, rfl⟩

/-- In Ready, and after INIT has failed. -/
theorem witness_AnswersBetweenOperations :
    ((ready []).Inv ∧ (ready []).seq = .idle ∧ (ready []).failed = false ∧ (ready []).phase ≠ .uninitialized)
    ∧ ({ bench [] with failed := true, phase := .fourBitMode } : State).Inv :=
  ⟨⟨inv_of_check (by decide), rfl, rfl, nofun⟩, inv_of_check (by decide)⟩

/-! ## Witnesses: the whole machine -/

theorem witness_StepKeepsTheInvariant : ∃ s t : State, s.Inv ∧ step s = .next t :=
  ⟨during 1 0x00 20 .setph 1 [calm], _, inv_of_check (by decide), rfl⟩

theorem witness_RunsNeverStop : (during 3 0x48 4 .await 1 []).Inv := inv_of_check (by decide)

/-- The last edge of a write operation, and a bus error at its last write. -/
theorem witness_OperationOutcome :
    ∀ s ∈ [during 3 0x48 7 .delay 1 [calm], during 3 0x48 6 .await 1 [{ calm with busRespErr := 0b11 }]],
      invCheck s = true ∧ s.seq.running = true ∧ s.pins.rst = false
      ∧ (after s).map (fun t => t.seq.running) = some false := by decide

/-- An edge of each state that does not wait, with the transport's other ports at 0, and the two waits for the transport. -/
theorem witness_WorkCountsDown :
    ∀ x ∈ ([ (during 3 0x48 2 .await 1 [{ quiet with busRespValid := true, busRespErr := 0b00 }], State.immediate)
           , (during 3 0x48 2 .issue 1 [{ quiet with busReqReady := true }], State.immediate)
           , (during 3 0x48 3 .delay 2 [quiet], State.immediate), (during 1 0x00 15 .setph 1 [quiet], State.immediate)
           , (during 3 0x48 2 .issue 1 [{ calm with busReqReady := false }],
               fun s => s.seq == .issue && !s.pins.busReqReady)
           , (during 3 0x48 2 .await 1 [{ calm with busRespValid := false }],
               fun s => s.seq == .await && !s.pins.busRespValid) ]
          : List (State × (State → Bool))),
      invCheck x.1 = true ∧ x.1.seq.running = true ∧ x.1.pins.rst = false ∧ x.2 x.1 = true := by decide

/-- `Served`, as a check. -/
def servedCheck (w : Nat) (s : State) : Bool :=
  !s.pins.rst && (s.seq != .await || !s.pins.busRespValid || s.pins.busRespErr == 0b00)
  && (s.seq != .issue || (List.range (w + 1)).any fun j => (s.pinsAt j).busReqReady)
  && (s.seq != .await || (List.range (w + 1)).any fun j => (s.pinsAt j).busRespValid)

theorem served_of_check {w n : Nat} {s : State} (h : runCheck (servedCheck w) n s = true) : s.Served w n := by
  intro k hk t ht
  have h := of_runCheck h k hk t ht
  simp only [servedCheck, Bool.and_eq_true, Bool.or_eq_true, bne_iff_ne, Bool.not_eq_true', beq_iff_eq, List.any_eq_true,
    List.mem_range, Nat.lt_succ_iff] at h
  obtain ⟨⟨⟨h1, h2⟩, h3⟩, h4⟩ := h
  refine ⟨h1, fun a b => ?_, fun a => h3.resolve_left (· a), fun a => h4.resolve_left (· a)⟩
  rcases h2 with (h2 | h2) | h2
  · exact absurd a h2
  · rw [b] at h2; cases h2
  · exact h2

/-- The last nibble of a write, before a transport that keeps R156 and takes two edges more each time. -/
theorem witness_SlowTransportsCompleteToo :
    ∃ (w : Nat) (s : State), s.Inv ∧ s.seq.running = true ∧ s.Served w ((w + 1) * s.work) :=
  ⟨2, during 3 0x48 4 .issue 1 (pulsed 2 ((actions Params.ex 3 0x48).drop 4) ++ List.replicate 30 quiet),
    inv_of_check (by decide), rfl, served_of_check (by decide)⟩

theorem witness_BusTraceGrowsByTheHandshake : ∃ s t : State, step s = .next t ∧ t.busTrace ≠ s.busTrace :=
  ⟨during 3 0x48 0 .issue 1 [calm], _, rfl, by decide⟩

theorem witness_ParametersNeverChange : ∃ t, runSteps 2 (ready [calm, { calm with rst := true }]) = .next t := ⟨_, rfl⟩

/-- A strobe byte and a latch byte in `OUTB`. -/
theorem witness_ControllerLatchesEachNibble :
    (during 3 0x57 0 .await 1 []).outb = strobe 0x5 true ∧ (during 3 0x57 2 .await 1 []).outb = latch true := by decide

/-- The two states differ in the controller, and both step. -/
theorem witness_LcdIsInvisibleToTheBlock :
    ∃ s t : State, s.SameBlock t ∧ s.lcd ≠ t.lcd ∧ (∃ s', step s = .next s') :=
  ⟨ready [calm], { ready [calm] with lcd := .e8 }, ⟨rfl, rfl, rfl, rfl, rfl, rfl, rfl, rfl, rfl, rfl, rfl, rfl, rfl⟩,
    nofun, ⟨_, rfl⟩⟩

theorem witness_InitConvergesTheController :
    ∃ (s t : State) (n : Nat), s.params.Legal ∧ s.seq = .idle ∧ s.failed = false ∧ s.phase = .uninitialized
      ∧ keepsFourBitMode s.params.cfgFunctionSet = true ∧ keepsFourBitMode s.params.cfgDisplayControl = true
      ∧ keepsFourBitMode s.params.cfgClear = true ∧ keepsFourBitMode s.params.cfgEntryMode = true
      ∧ n = 48 + 12 * (s.params.dStrobe + s.params.dSettle) + s.params.dInit1 + s.params.dInit2 + s.params.dInit3 + 3
      ∧ exec .init s = .next t ∧ t.Immediate n :=
  ⟨bench (pulsed 0 (actions Params.ex 1 0)), _, 134, ex_legal, rfl, rfl, rfl, by decide, by decide, by decide, by decide, rfl,
    rfl, initStarted_immediate⟩

/-- A function set with DL = 0, one step below the bytes the statement leaves out. -/
theorem witness_WritesKeepTheFraming :
    ∃ (s t : State) (i : Instr) (d : Byte) (n : Nat), (i = .writeCommand d ∨ i = .writeData d) ∧ s.params.Legal
      ∧ s.seq = .idle ∧ s.failed = false ∧ s.phase = .ready ∧ s.lcd = .f4h ∧ keepsFourBitMode d = true
      ∧ n = 8 + 2 * (s.params.dStrobe + s.params.dSettle) ∧ exec i s = .next t ∧ t.Immediate n :=
  ⟨ready (pulsed 0 (actions Params.ex 2 0x2F)), _, .writeCommand 0x2F, 0x2F, 20, .inl rfl, ex_legal, rfl, rfl, rfl, rfl,
    by decide, rfl, rfl, of_runCheck (by decide)⟩

end Sys2Proof.Tests
end

section
/-! SUPPORT. The LCD side erased from a state: every operation of the block commutes with the erasure, up to the erased part, so a
step cannot bring anything of it into the block (00_scope.md R3, 10_state.md R36). -/

namespace Sys2Proof.Machine

/-! ## The block without the LCD side -/

/-- The block with its parameters, its inputs to come and the edge; the LCD side and the traces are erased. -/
def State.block (s : State) : State :=
  { s with expander := 0, strobed := 0, lcd := .e8, busTrace := [], respTrace := [] }

/-- The erasure in what a step answers. -/
def Out.block : Out → Out
  | .next s => .next s.block
  | .fault r => .fault r
  | .refused r => .refused r

/-- The erasure keeps exactly what `SameBlock` compares. -/
theorem sameBlock_iff {s t : State} : s.SameBlock t ↔ s.block = t.block := by
  simp [State.SameBlock, State.block]

@[simp] theorem Out.block_next (s : State) : Out.block (.next s) = .next s.block := rfl

@[simp] theorem Out.block_fault (r : Fault) : Out.block (.fault r) = .fault r := rfl

@[simp] theorem Out.block_refused (r : Refusal) : Out.block (.refused r) = .refused r := rfl

theorem Out.block_eq_next {o : Out} {u : State} : Out.block o = .next u ↔ ∃ t, o = .next t ∧ t.block = u := by
  cases o <;> simp

theorem Out.block_eq_fault {o : Out} {r : Fault} : Out.block o = .fault r ↔ o = .fault r := by
  cases o <;> simp

theorem Out.block_eq_refused {o : Out} {r : Refusal} : Out.block o = .refused r ↔ o = .refused r := by
  cases o <;> simp

@[simp] theorem outputs_block (s : State) (rst : Bool) : s.block.outputs rst = s.outputs rst := rfl

/-! ## Operations that neither read nor write the LCD side commute with the erasure -/

theorem enter_past_end {s : State} {i : Nat} (h : s.actionList.length < i) :
    enter s i = .fault .actionIndexPastEnd := by
  simp [enter, Nat.ne_of_gt h, List.getElem?_eq_none (Nat.le_of_lt h)]

theorem block_begin (s : State) (a : Action) : (s.begin a).block = s.block.begin a := by
  cases a <;> rfl

theorem block_enter (s : State) (i : Nat) : Out.block (enter s i) = enter s.block i := by
  rcases Nat.lt_trichotomy i s.actionList.length with h | h | h
  · have hget := List.getElem?_eq_getElem h
    rw [enter_of_some hget, enter_of_some (s := s.block) hget, Out.block_next, block_begin]
  · rw [enter_at_end h, enter_at_end (s := s.block) h]
    rfl
  · rw [enter_past_end h, enter_past_end (s := s.block) h]
    rfl

theorem block_advance (s : State) : Out.block (advance s) = advance s.block := block_enter ..

theorem block_start (s : State) (op : BitVec 2) (d : Byte) : Out.block (start s op d) = start s.block op d :=
  block_enter ..

theorem block_respond (s : State) (c : Code) : (s.respond c).block = s.block.respond c := rfl

theorem block_whenIdle (s : State) (o : Out) : Out.block (whenIdle s o) = whenIdle s.block (Out.block o) :=
  apply_ite Out.block ..

theorem block_execInit (s : State) : Out.block (execInit s) = execInit s.block := by
  simp only [execInit, block_whenIdle, apply_ite Out.block, Out.block_next, block_respond, block_start]
  rfl

theorem block_acceptWrite (op : BitVec 2) (d : Byte) (s : State) :
    Out.block (acceptWrite op d s) = acceptWrite op d s.block := by
  simp only [acceptWrite, block_whenIdle, apply_ite Out.block, Out.block_next, block_respond, block_start]
  rfl

theorem block_exec (i : Instr) (s : State) : Out.block (exec i s) = exec i s.block := by
  cases i with
  | status => exact block_whenIdle ..
  | init => exact block_execInit s
  | writeCommand d => exact block_acceptWrite ..
  | writeData d => exact block_acceptWrite ..

theorem block_accept (w : Word) (s : State) : Out.block (accept w s) = accept w s.block := by
  unfold accept
  cases decode w with
  | legal i => exact block_exec i s
  | illegal r => exact block_whenIdle ..

theorem block_delayEdge (s : State) : Out.block (delayEdge s) = delayEdge s.block := by
  simp only [delayEdge, apply_ite Out.block, block_advance]
  rfl

theorem block_setPhaseEdge (s : State) : Out.block (setPhaseEdge s) = setPhaseEdge s.block := by
  have hlist : s.block.actionList = s.actionList := rfl
  have hact : s.block.act = s.act := rfl
  unfold setPhaseEdge
  rw [hlist, hact]
  split
  · exact block_advance _
  · rfl

/-! ## Operations that write the LCD side or a trace do so in the erased part only -/

theorem block_issueEdge (p : Pins) (s : State) :
    Out.block (issueEdge p s) = Out.block (issueEdge p s.block) := by
  simp only [issueEdge, apply_ite Out.block]
  rfl

theorem block_awaitEdge (p : Pins) (s : State) :
    Out.block (awaitEdge p s) = Out.block (awaitEdge p s.block) := by
  simp only [awaitEdge, apply_ite Out.block, block_advance]
  rfl

theorem block_respondEdge (p : Pins) (s : State) :
    Out.block (respondEdge p s) = Out.block (respondEdge p s.block) := by
  simp only [respondEdge, apply_ite Out.block]
  rfl

/-- What a step leaves in the block, and whether it stops, is decided by the block and the inputs alone. -/
theorem block_step (s : State) : Out.block (step s) = Out.block (step s.block) := by
  cases hr : s.pins.rst with
  | true => rw [step_rst hr, step_rst (s := s.block) hr]; rfl
  | false =>
    cases hs : s.seq with
    | idle =>
      cases hv : s.pins.reqValid with
      | true =>
        rw [step_idle_request hr hs hv, step_idle_request (s := s.block) hr hs hv, block_accept, block_accept]
        rfl
      | false => rw [step_idle_quiet hr hs hv, step_idle_quiet (s := s.block) hr hs hv]; rfl
    | issue => rw [step_issue hr hs, step_issue (s := s.block) hr hs]; exact block_issueEdge ..
    | await => rw [step_await hr hs, step_await (s := s.block) hr hs]; exact block_awaitEdge ..
    | delay =>
      rw [step_delay hr hs, step_delay (s := s.block) hr hs, block_delayEdge, block_delayEdge]
      rfl
    | setph =>
      rw [step_setph hr hs, step_setph (s := s.block) hr hs, block_setPhaseEdge, block_setPhaseEdge]
      rfl
    | respond => rw [step_respond hr hs, step_respond (s := s.block) hr hs]; exact block_respondEdge ..

/-! ## Two states with the same block -/

theorem State.SameBlock.outputs_eq {s t : State} (h : s.SameBlock t) (rst : Bool) : s.outputs rst = t.outputs rst := by
  rw [← outputs_block s, sameBlock_iff.mp h, outputs_block]

theorem State.SameBlock.block_step_eq {s t : State} (h : s.SameBlock t) : Out.block (step t) = Out.block (step s) := by
  rw [block_step t, ← sameBlock_iff.mp h, ← block_step s]

/-- Settles O50: the outputs and the step both factor through the erasure of the LCD side, and `SameBlock` is equality after it. -/
theorem lcdIsInvisibleToTheBlock : Obligations.LcdIsInvisibleToTheBlock := by
  intro s t h
  have hstep := h.block_step_eq
  refine ⟨h.outputs_eq, fun s' hs => ?_, fun r hs => ?_, fun r hs => ?_⟩
  · rw [hs] at hstep
    obtain ⟨t', ht, hblock⟩ := Out.block_eq_next.mp hstep
    exact ⟨t', ht, sameBlock_iff.mpr hblock.symm⟩
  · rw [hs] at hstep
    exact Out.block_eq_fault.mp hstep
  · rw [hs] at hstep
    exact Out.block_eq_refused.mp hstep

end Sys2Proof.Machine
end

section
/-! SUPPORT. What holds of every action of every list, and where a list's phase actions stand (30_encoding.md R61, 42_init.md R104,
R108). -/

namespace Sys2Proof.Machine

/-! ## Every action of a list -/

/-- The lists are made of strobe and latch writes, delays and phases: what holds of those holds of every action (R86, R92, R104). -/
theorem forall_mem_actions {P : Action → Prop} (hstrobe : ∀ n rs, P (.write (strobe n rs)))
    (hlatch : ∀ rs, P (.write (latch rs))) (hdelay : ∀ d, P (.delay d)) (hphase : ∀ q, P (.phase q))
    (p : Params) (o : BitVec 2) (d : Byte) : ∀ a ∈ actions p o d, P a := by
  have nibble : ∀ n rs, ∀ a ∈ sendNibble p n rs, P a := by simp [sendNibble, hstrobe, hlatch, hdelay]
  have byte : ∀ b rs, ∀ a ∈ sendByte p b rs, P a := fun b rs =>
    List.forall_mem_append.mpr ⟨nibble _ rs, nibble _ rs⟩
  have init : ∀ a ∈ initActions p, P a := by
    simp only [initActions, convergenceActions, initNibble, fourBitActions, configurationActions, List.forall_mem_append,
      List.forall_mem_singleton]
    exact ⟨⟨⟨⟨⟨⟨⟨⟨nibble _ _, hdelay _⟩, nibble _ _, hdelay _⟩, nibble _ _, hdelay _⟩, hphase _⟩, nibble _ _⟩, hphase _⟩,
      ⟨⟨byte _ _, byte _ _⟩, byte _ _⟩, byte _ _⟩, hphase _⟩
  unfold actions
  split
  · simp
  · split
    · exact init
    · exact byte _ _

theorem strobe_mem_wireBytes (n : Nibble) (rs : Bool) : strobe n rs ∈ wireBytes := by revert n rs; decide

theorem latch_mem_wireBytes (rs : Bool) : latch rs ∈ wireBytes := by revert rs; decide

/-- The byte of an action, if it writes one, is a wire byte (R61). -/
def Action.OnWire : Action → Prop
  | .write b => b ∈ wireBytes
  | .delay _ => True
  | .phase _ => True

/-- A list writes wire bytes only (R61). -/
theorem mem_wireBytes_of_write {s : State} {i : Nat} {b : Byte} (h : s.actionList[i]? = some (.write b)) :
    b ∈ wireBytes :=
  forall_mem_actions (P := Action.OnWire) strobe_mem_wireBytes latch_mem_wireBytes (fun _ => trivial) (fun _ => trivial)
    _ _ _ (.write b) (List.mem_of_getElem? h)

/-! ## Phase actions -/

/-- A write operation sets no phase (R96, R98). -/
theorem phase_not_mem_sendByte (p : Params) (b : Byte) (rs : Bool) (q : Phase) : Action.phase q ∉ sendByte p b rs := by
  simp [sendByte, sendNibble]

/-- INIT's phase actions go one phase up each, from the phase the list has reached (R104, R108). -/
theorem initKinds_phase_succ : ∀ i < 54, ∀ q : Phase, initKinds[i]? = some (.phase q) →
    q.code.toNat = (phaseAfter .uninitialized (initKinds.take i)).code.toNat + 1 := by
  have h : ∀ i < 54, ∀ q ∈ [Phase.uninitialized, .eightBitTransition, .fourBitMode, .ready],
      initKinds[i]? = some (.phase q) →
      q.code.toNat = (phaseAfter .uninitialized (initKinds.take i)).code.toNat + 1 := by decide
  exact fun i hi q => h i hi q (by cases q <;> decide)

/-- A phase action belongs to INIT, and is the phase after the one its list has reached (R18, R104). -/
theorem phase_action_succ {s : State} {i : Nat} {q : Phase} (h : s.actionList[i]? = some (.phase q)) :
    s.op = opInit ∧ q.code.toNat = (phaseAfter (startPhase s.op) (s.actionList.take i)).code.toNat + 1 := by
  have hmem : Action.phase q ∈ s.actionList := List.mem_of_getElem? h
  have hop : s.op = opInit := by
    by_contra hop
    unfold State.actionList actions at hmem
    split at hmem
    · cases hmem
    · exact phase_not_mem_sendByte _ _ _ _ hmem
  refine ⟨hop, ?_⟩
  have hlist : s.actionList = initActions s.params := by rw [State.actionList, hop, actions_init]
  have hkind : initKinds[i]? = some (.phase q) := by
    rw [← map_kind_initActions s.params, List.getElem?_map, ← hlist, h]
    rfl
  have hsucc := initKinds_phase_succ i (index_lt_of_getElem? h) q hkind
  rw [← map_kind_initActions s.params, ← List.map_take, phaseAfter_kind] at hsucc
  rw [hop, hlist]
  exact hsucc

/-- No part of a list writes more than 24 bytes (R26). -/
theorem writtenBytes_take_length_le (s : State) (i : Nat) : (writtenBytes (s.actionList.take i)).length ≤ 24 := by
  have h := congrArg List.length (writtenBytes_append (s.actionList.take i) (s.actionList.drop i))
  rw [List.take_append_drop, List.length_append] at h
  have := writtenBytes_length_le s.params s.op s.dbyte
  unfold State.actionList at h ⊢
  omega

end Sys2Proof.Machine
end

section
/-! SUPPORT. What starting an action, going on in a list and a whole step leave in a register. -/

namespace Sys2Proof.Machine

/-! ## Starting any action -/

@[simp] theorem begin_params (s : State) (a : Action) : (s.begin a).params = s.params := by cases a <;> rfl
@[simp] theorem begin_phase (s : State) (a : Action) : (s.begin a).phase = s.phase := by cases a <;> rfl
@[simp] theorem begin_failed (s : State) (a : Action) : (s.begin a).failed = s.failed := by cases a <;> rfl
@[simp] theorem begin_op (s : State) (a : Action) : (s.begin a).op = s.op := by cases a <;> rfl
@[simp] theorem begin_act (s : State) (a : Action) : (s.begin a).act = s.act := by cases a <;> rfl
@[simp] theorem begin_wcnt (s : State) (a : Action) : (s.begin a).wcnt = s.wcnt := by cases a <;> rfl
@[simp] theorem begin_resp (s : State) (a : Action) : (s.begin a).resp = s.resp := by cases a <;> rfl
@[simp] theorem begin_busTrace (s : State) (a : Action) : (s.begin a).busTrace = s.busTrace := by cases a <;> rfl
@[simp] theorem begin_actionList (s : State) (a : Action) : (s.begin a).actionList = s.actionList := by cases a <;> rfl

theorem begin_seq_ne_await (s : State) (a : Action) : (s.begin a).seq ≠ .await := by cases a <;> nofun

@[simp] theorem begin_running (s : State) (a : Action) : (s.begin a).seq.running = true := by cases a <;> rfl

/-- Going on in a list writes no parameter, no phase and not `FAILED` (R77). -/
theorem advance_frame {s t : State} (h : advance s = .next t) :
    t.params = s.params ∧ t.phase = s.phase ∧ t.failed = s.failed := by
  rcases advance_cases h with ⟨a, -, rfl⟩ | ⟨-, rfl⟩
  · simp
  · exact ⟨rfl, rfl, rfl⟩

/-! ## One register over a step -/

/-- No step writes a parameter (R32). -/
theorem step_params {s t : State} (h : step s = .next t) : t.params = s.params := by
  cases step_cases h with
  | reset _ ht | wait _ _ ht | flying _ _ ht | answered _ _ _ _ _ ht | issued _ _ _ ht | aborted _ _ _ _ ht
  | counted _ _ _ ht | taken _ _ _ ht => subst ht; simp
  | started _ _ _ _ _ _ _ ht => subst ht; simp
  | acked _ _ _ _ ht => exact (advance_frame ht).1
  | expired _ _ _ ht => exact (advance_frame ht).1
  | phased _ _ _ _ ht => exact (advance_frame ht).1

/-- The edge samples a bus error: the one event that sets `FAILED` (R19, R132). -/
def State.SamplesBusError (s : State) : Prop :=
  s.seq = .await ∧ s.pins.busRespValid = true ∧ s.pins.busRespErr ≠ 0b00

theorem State.not_samplesBusError {s : State} (h : s.seq ≠ .await) : ¬ s.SamplesBusError := fun he => h he.1

/-- An edge without reset sets `FAILED` at a bus error and otherwise keeps it (R19). -/
theorem step_failed {s t : State} (h : step s = .next t) (hr : s.pins.rst = false) :
    t.failed = true ↔ s.failed = true ∨ s.SamplesBusError := by
  have keep : t.failed = s.failed → ¬ s.SamplesBusError → (t.failed = true ↔ s.failed = true ∨ s.SamplesBusError) :=
    fun hf hn => by rw [hf, or_iff_left hn]
  have elsewhere : s.seq ≠ .await → t.failed = s.failed → (t.failed = true ↔ s.failed = true ∨ s.SamplesBusError) :=
    fun hs hf => keep hf (State.not_samplesBusError hs)
  cases step_cases h with
  | reset hr' => rw [hr] at hr'; cases hr'
  | wait _ hs ht => exact elsewhere (by rcases hs with ⟨hs, -⟩ | ⟨hs, -⟩ <;> simp [hs]) (ht ▸ rfl)
  | flying _ hs ht =>
    rcases hs with ⟨hs, -⟩ | ⟨-, hv⟩
    · exact elsewhere (by simp [hs]) (ht ▸ rfl)
    · exact keep (ht ▸ rfl) fun ⟨_, hv', _⟩ => by rw [hv] at hv'; cases hv'
  | answered _ _ hs _ _ ht => exact elsewhere (by simp [hs]) (ht ▸ rfl)
  | started _ _ _ _ hs _ _ ht => exact elsewhere (by simp [hs]) (ht ▸ rfl)
  | issued _ hs _ ht => exact elsewhere (by simp [hs]) (ht ▸ rfl)
  | acked _ _ _ he ht => exact keep (advance_frame ht).2.2 fun ⟨_, _, he'⟩ => he' he
  | aborted _ hs hv he ht => exact ⟨fun _ => .inr ⟨hs, hv, he⟩, fun _ => ht ▸ rfl⟩
  | counted _ hs _ ht => exact elsewhere (by simp [hs]) (ht ▸ rfl)
  | expired _ hs _ ht => exact elsewhere (by simp [hs]) (advance_frame ht).2.2
  | phased _ _ hs _ ht => exact elsewhere (by simp [hs]) (advance_frame ht).2.2
  | taken _ hs _ ht => exact elsewhere (by simp [hs]) (ht ▸ rfl)

/-- An edge without reset changes `PHASE` only by the current phase action in SETPH (R18, R83). -/
theorem step_phase {s t : State} (h : step s = .next t) (hr : s.pins.rst = false) :
    t.phase = s.phase ∨ (s.seq = .setph ∧ s.actionList[s.act.toNat]? = some (.phase t.phase)) := by
  cases step_cases h with
  | reset hr' => rw [hr] at hr'; cases hr'
  | wait _ _ ht | flying _ _ ht | answered _ _ _ _ _ ht | issued _ _ _ ht | aborted _ _ _ _ ht
  | counted _ _ _ ht | taken _ _ _ ht => subst ht; exact .inl rfl
  | started _ _ _ _ _ _ _ ht => subst ht; exact .inl rfl
  | acked _ _ _ _ ht => exact .inl (advance_frame ht).2.1
  | expired _ _ _ ht => exact .inl (advance_frame ht).2.1
  | phased p _ hs hp ht =>
    have : t.phase = p := (advance_frame ht).2.1
    exact .inr ⟨hs, this ▸ hp⟩

/-! ## The request port while the block is busy -/

/-- Outside IDLE the step does not look at the request port (R34, R85). -/
theorem step_request_of_busy {s : State} (hs : s.seq ≠ .idle) (p : Pins) (rest : List Pins) (v : Bool) (w : Word) :
    step { s with inputs := { p with reqValid := v, reqWord := w } :: rest }
      = step { s with inputs := p :: rest } := by
  simp only [step, pins_cons]
  cases hq : s.seq with
  | idle => exact absurd hq hs
  | issue | await | delay | setph | respond => rfl

/-- Outside IDLE no request has an effect (R34, R85). -/
theorem exec_of_busy {s : State} (hs : s.seq ≠ .idle) (i : Instr) : exec i s = .next s := by
  cases i <;> exact whenIdle_busy hs

/-- In IDLE with `FAILED = 1` every request but STATUS is answered FAILED (R19, R121). -/
theorem exec_of_failed {s : State} (hs : s.seq = .idle) (hf : s.failed = true) {i : Instr} (hi : i ≠ .status) :
    exec i s = .next (s.respond .failed) := by
  cases i with
  | status => exact absurd rfl hi
  | init => simp [exec, execInit, whenIdle_idle hs, hf]
  | writeCommand d => simp [exec, execWriteCommand, acceptWrite, whenIdle_idle hs, hf]
  | writeData d => simp [exec, execWriteData, acceptWrite, whenIdle_idle hs, hf]

/-- Accepting a request in IDLE leaves IDLE (R121). -/
theorem accept_leaves_idle {w : Word} {s t : State} (hs : s.seq = .idle) (h : accept w s = .next t) : t.seq ≠ .idle := by
  rcases accept_cases hs h with ⟨c, -, rfl⟩ | ⟨o, d, b, -, rfl⟩ <;> nofun

end Sys2Proof.Machine
end

section
/-! SUPPORT. The invariant of the machine, kept by each thing an edge can do (10_state.md R18, R24 to R26; 20_memory.md R51;
42_init.md R108). -/

namespace Sys2Proof.Machine

/-! ## What a performed part of a list has left -/

/-- The actions of `l` are done and no other: `WCNT` counts their writes, `PHASE` is where they have put it, and their bytes are
the newest on the bus, in order (R26, R51, R108). -/
structure State.HasDone (s : State) (l : List Action) : Prop where
  counted : s.wcnt.toNat = (writtenBytes l).length
  inPhase : s.phase = phaseAfter (startPhase s.op) l
  inOrder : ((s.busTrace.take s.wcnt.toNat).map BusWrite.data).reverse = writtenBytes l

theorem State.HasDone.delay {s : State} {l : List Action} (h : s.HasDone l) (d : Nat) : s.HasDone (l ++ [.delay d]) where
  counted := by simpa [writtenBytes_append, writtenBytes] using h.counted
  inPhase := by simpa [phaseAfter_append, phaseAfter] using h.inPhase
  inOrder := by simpa [writtenBytes_append, writtenBytes] using h.inOrder

theorem State.HasDone.setPhase {s : State} {l : List Action} (h : s.HasDone l) (p : Phase) :
    ({ s with phase := p } : State).HasDone (l ++ [.phase p]) where
  counted := by simpa [writtenBytes_append, writtenBytes] using h.counted
  inPhase := by simp [phaseAfter_append, phaseAfter]
  inOrder := by simpa [writtenBytes_append, writtenBytes] using h.inOrder

/-- Outside AWAIT no write is outstanding: the actions before `ACT` are done (R26). -/
theorem State.Progress.hasDone {s : State} (h : s.Progress) (hs : s.seq ≠ .await) :
    s.HasDone (s.actionList.take s.act.toNat) where
  counted := h.counted
  inPhase := h.inPhase
  inOrder := by simpa [State.issued, hs] using h.inOrder

/-- The OK of the outstanding write makes it done as well; `WCNT` does not wrap (R26). -/
theorem State.Progress.hasDone_ack {s : State} (h : s.Progress) (hs : s.seq = .await) :
    ({ s.delivered with wcnt := s.wcnt + 1 } : State).HasDone (s.actionList.take s.act.toNat ++ [.write s.outb]) := by
  have hle := writtenBytes_take_length_le s s.act.toNat
  have hwcnt : (s.wcnt + 1).toNat = s.wcnt.toNat + 1 := by
    have := h.counted
    simp [BitVec.toNat_add]
    omega
  refine ⟨?_, ?_, ?_⟩
  · show (s.wcnt + 1).toNat = _
    rw [hwcnt, h.counted, writtenBytes_append, List.length_append]
    rfl
  · simpa [phaseAfter_append, phaseAfter] using h.inPhase
  · have hin := h.inOrder
    simp only [State.issued, hs, if_true] at hin
    show ((s.busTrace.take (s.wcnt + 1).toNat).map BusWrite.data).reverse = _
    rw [hwcnt, hin, writtenBytes_append]
    rfl

/-! ## The action of a running state -/

/-- In ISSUE and AWAIT the current action writes the byte in `OUTB` (R27). -/
theorem State.Progress.current_write {s : State} (h : s.Progress) (hs : s.seq = .issue ∨ s.seq = .await) :
    s.actionList[s.act.toNat]? = some (.write s.outb) := by
  obtain ⟨a, ha, hp⟩ := h.current
  cases a with
  | write b => rw [ha, hp.2]
  | delay d => rcases hs with hs | hs <;> simp [State.Performs, hs] at hp
  | phase p => rcases hs with hs | hs <;> simp [State.Performs, hs] at hp

/-- In DELAY the current action is a delay, and `DCNT` is within it (R25). -/
theorem State.Progress.current_delay {s : State} (h : s.Progress) (hs : s.seq = .delay) :
    ∃ d, s.actionList[s.act.toNat]? = some (.delay d) ∧ 1 ≤ s.dcnt ∧ s.dcnt ≤ d := by
  obtain ⟨a, ha, hp⟩ := h.current
  cases a with
  | write b => simp [State.Performs, hs] at hp
  | delay d => exact ⟨d, ha, hp.2⟩
  | phase p => simp [State.Performs, hs] at hp

/-- A state that has just started an action performs it (R77). -/
theorem begin_performs {s : State} {a : Action} (h : a.Fits s.params) : (s.begin a).Performs a := by
  cases a with
  | write b => exact ⟨.inl rfl, rfl⟩
  | delay d =>
    have hd : (s.begin (.delay d)).dcnt = d := loadDelay_of_lt h.2
    exact ⟨rfl, hd.symm ▸ h.1, hd.le⟩
  | phase p => rfl

/-! ## The invariant, taken apart -/

/-- The part of the invariant that holds whether an operation is running or not. -/
structure State.Sound (s : State) : Prop where
  legal     : s.params.Legal
  dcntFits  : s.dcnt < 2 ^ s.params.dcntW
  response  : responseWellFormed s.resp = true
  busWrites : ∀ w ∈ s.busTrace, w.allowed s.params

theorem State.Inv.sound {s : State} (h : s.Inv) : s.Sound := ⟨h.legal, h.dcntFits, h.response, h.busWrites⟩

theorem State.Sound.inv_of_running {s : State} (h : s.Sound) (hr : s.seq.running = true) (hp : s.Progress) : s.Inv where
  legal     := h.legal
  dcntFits  := h.dcntFits
  progress  := fun _ => hp
  settled   := fun hn => by rw [hr] at hn; cases hn
  response  := h.response
  busWrites := h.busWrites

theorem State.Sound.inv_of_resting {s : State} (h : s.Sound) (hr : s.seq.running = false)
    (hp : s.failed = false → s.phase = .uninitialized ∨ s.phase = .ready) : s.Inv where
  legal     := h.legal
  dcntFits  := h.dcntFits
  progress  := fun hn => by rw [hr] at hn; cases hn
  settled   := fun _ => hp
  response  := h.response
  busWrites := h.busWrites

/-! ## Going on in a list -/

/-- Starting an action with the ones before it done, or finishing with all of them done, gives the invariant (R77). -/
theorem State.Sound.inv_of_enter {s t : State} (h : s.Sound) (hf : s.failed = false) (hop : s.op ≠ 0)
    (hd : s.HasDone (s.actionList.take s.act.toNat)) (ht : enter s s.act.toNat = .next t) : t.Inv := by
  rcases enter_cases ht with ⟨a, ha, rfl⟩ | ⟨hend, rfl⟩
  · have hfits : a.Fits s.params := actions_fits h.legal _ _ a (List.mem_of_getElem? ha)
    have hsound : (s.begin a).Sound := by
      refine ⟨by simpa using h.legal, ?_, by simpa using h.response, by simpa using h.busWrites⟩
      cases a with
      | delay d => exact Nat.mod_lt _ (Nat.two_pow_pos _)
      | write b => exact h.dcntFits
      | phase p => exact h.dcntFits
    refine hsound.inv_of_running (begin_running s a) ⟨by simpa using hf, by simpa using hop, ?_, ?_, ?_, ?_⟩
    · exact ⟨a, by simpa using ha, begin_performs hfits⟩
    · simpa using hd.counted
    · simpa using hd.inPhase
    · simpa [State.issued, begin_seq_ne_await] using hd.inOrder
  · have hready : s.phase = .ready := by
      rw [hd.inPhase, hend, List.take_length]
      exact phaseAfter_actions _ _ hop
    have hsound : s.finish.Sound :=
      ⟨h.legal, h.dcntFits, responseWellFormed_respWord (by simp) _, h.busWrites⟩
    exact hsound.inv_of_resting rfl fun _ => .inr hready

/-- `advance` once the current action is done gives the invariant (R77). -/
theorem State.Sound.inv_of_advance {s t : State} {a : Action} (h : s.Sound) (hf : s.failed = false) (hop : s.op ≠ 0)
    (ha : s.actionList[s.act.toNat]? = some a) (hd : s.HasDone (s.actionList.take s.act.toNat ++ [a]))
    (ht : advance s = .next t) : t.Inv := by
  have hact : (s.act + 1).toNat = s.act.toNat + 1 := act_succ_toNat (by have := index_lt_of_getElem? ha; omega)
  rw [← take_succ_of_getElem? ha, ← hact] at hd
  unfold advance at ht
  rw [← hact] at ht
  exact State.Sound.inv_of_enter (s := { s with act := s.act + 1 }) ⟨h.legal, h.dcntFits, h.response, h.busWrites⟩ hf hop
    ⟨hd.counted, hd.inPhase, hd.inOrder⟩ ht

/-! ## What an edge can do, one by one -/

/-- The invariant does not speak of the inputs to come or of the edge number. -/
theorem State.Inv.clocked {s : State} (h : s.Inv) : s.clocked.Inv where
  legal     := h.legal
  dcntFits  := h.dcntFits
  progress  := fun hr =>
    have hp := h.progress hr
    ⟨hp.notFailed, hp.isOp, hp.current, hp.counted, hp.inPhase, hp.inOrder⟩
  settled   := h.settled
  response  := h.response
  busWrites := h.busWrites

/-- The invariant does not speak of the expander and the controller. -/
theorem State.Inv.inFlight {s : State} (h : s.Inv) : s.inFlight.Inv where
  legal     := h.legal
  dcntFits  := h.dcntFits
  progress  := fun hr =>
    have hp := h.progress hr
    ⟨hp.notFailed, hp.isOp, hp.current, hp.counted, hp.inPhase, hp.inOrder⟩
  settled   := h.settled
  response  := h.response
  busWrites := h.busWrites

/-- A reset edge gives the invariant whatever the registers held (R38, R147). -/
theorem inv_resetEdge {s : State} (hl : s.params.Legal) (hb : ∀ w ∈ s.busTrace, w.allowed s.params) :
    s.resetEdge.Inv :=
  State.Sound.inv_of_resting ⟨hl, Nat.two_pow_pos _, show responseWellFormed 0x0000 = true by decide, hb⟩ rfl fun _ => .inl rfl

theorem State.Inv.respond {s : State} (h : s.Inv) (hs : s.seq.running = false) {c : Code} (hc : c ≠ .busError) :
    (s.respond c).Inv :=
  State.Sound.inv_of_resting
    ⟨h.legal, h.dcntFits, responseWellFormed_respWord (by simpa using hc) _, h.busWrites⟩ rfl (h.settled hs)

theorem State.Inv.responseTaken {s : State} (h : s.Inv) (hs : s.seq.running = false) : s.responseTaken.Inv :=
  State.Sound.inv_of_resting ⟨h.legal, h.dcntFits, h.response, h.busWrites⟩ rfl (h.settled hs)

/-- Starting an operation in its starting phase: nothing of its list is done yet (R121). -/
theorem State.Inv.start {s t : State} (h : s.Inv) {o : BitVec 2} {d : Byte} (hf : s.failed = false) (ho : o ≠ 0)
    (hp : s.phase = startPhase o) (ht : Machine.start s o d = .next t) : t.Inv :=
  State.Sound.inv_of_enter (s := s.accepted o d) ⟨h.legal, h.dcntFits, h.response, h.busWrites⟩ hf ho ⟨rfl, hp, rfl⟩ ht

/-- The request handshake makes the write in `OUTB` the outstanding one (R40, R78). -/
theorem State.Inv.issue {s : State} (h : s.Inv) (hs : s.seq = .issue) (e : Nat) :
    ({ s with seq := .await, busTrace := ⟨e, s.params.devAddr, s.outb⟩ :: s.busTrace } : State).Inv := by
  have hp := h.progress (by rw [hs]; rfl)
  have hcur := hp.current_write (.inl hs)
  have hin := (hp.hasDone (by simp [hs])).inOrder
  refine State.Sound.inv_of_running ⟨h.legal, h.dcntFits, h.response, ?_⟩ rfl
    ⟨hp.notFailed, hp.isOp, ⟨_, hcur, .inr rfl, rfl⟩, hp.counted, hp.inPhase, ?_⟩
  · exact List.forall_mem_cons.mpr ⟨⟨rfl, mem_wireBytes_of_write hcur⟩, h.busWrites⟩
  · show State.issued _ = writtenBytes (s.actionList.take s.act.toNat) ++ [s.outb]
    simpa [State.issued] using hin

/-- An OK completes the outstanding write (R76, R78). -/
theorem State.Inv.ack {s t : State} (h : s.Inv) (hs : s.seq = .await)
    (ht : advance { s.delivered with wcnt := s.wcnt + 1 } = .next t) : t.Inv := by
  have hp := h.progress (by rw [hs]; rfl)
  exact State.Sound.inv_of_advance (s := { s.delivered with wcnt := s.wcnt + 1 })
    ⟨h.legal, h.dcntFits, h.response, h.busWrites⟩ hp.notFailed hp.isOp (hp.current_write (.inr hs)) (hp.hasDone_ack hs) ht

/-- The abort leaves a failed block with a BUS_ERROR response (R132). -/
theorem State.Inv.abort {s t : State} (h : s.Inv) {k : BitVec 2} (hk : k ≠ 0b00) (ht : Machine.abort s k = .next t) :
    t.Inv := by
  cases ht
  exact State.Sound.inv_of_resting ⟨h.legal, h.dcntFits, responseWellFormed_respWord (by simpa using hk) _, h.busWrites⟩ rfl nofun

/-- A delay that has more than one cycle left stays the current action (R81). -/
theorem State.Inv.countDown {s : State} (h : s.Inv) (hs : s.seq = .delay) (hd : 1 < s.dcnt) :
    ({ s with dcnt := s.dcnt - 1 } : State).Inv := by
  have hr : s.seq.running = true := by rw [hs]; rfl
  have hp := h.progress hr
  obtain ⟨d, hcur, -, hle⟩ := hp.current_delay hs
  refine State.Sound.inv_of_running ⟨h.legal, Nat.lt_of_le_of_lt (Nat.sub_le ..) h.dcntFits, h.response, h.busWrites⟩ hr
    ⟨hp.notFailed, hp.isOp, ⟨.delay d, hcur, hs, ?_, ?_⟩, hp.counted, hp.inPhase, hp.inOrder⟩
  · show 1 ≤ s.dcnt - 1
    omega
  · show s.dcnt - 1 ≤ d
    omega

/-- The last cycle of a delay completes it (R81). -/
theorem State.Inv.expire {s t : State} (h : s.Inv) (hs : s.seq = .delay) (ht : advance s = .next t) : t.Inv := by
  have hp := h.progress (by rw [hs]; rfl)
  obtain ⟨d, hcur, -, -⟩ := hp.current_delay hs
  exact h.sound.inv_of_advance hp.notFailed hp.isOp hcur ((hp.hasDone (by simp [hs])).delay d) ht

/-- A phase action is complete when `PHASE` is written (R83). -/
theorem State.Inv.setPhase {s t : State} {p : Phase} (h : s.Inv) (hs : s.seq = .setph)
    (hcur : s.actionList[s.act.toNat]? = some (.phase p)) (ht : advance { s with phase := p } = .next t) : t.Inv := by
  have hp := h.progress (by rw [hs]; rfl)
  exact State.Sound.inv_of_advance (s := { s with phase := p }) ⟨h.legal, h.dcntFits, h.response, h.busWrites⟩
    hp.notFailed hp.isOp hcur ((hp.hasDone (by simp [hs])).setPhase p) ht

/-! ## The edge that accepts a request -/

theorem AnsweredAtOnce.ne_busError {s : State} {d : Decoded} {c : Code} (h : AnsweredAtOnce s d c) : c ≠ .busError := by
  cases h <;> nofun

/-- An operation that starts has passed its checks, and `start` performs its first action (R121). -/
theorem Starts.checked {s : State} {w : Decoded} {o : BitVec 2} {d b : Byte} (h : Starts s w o d b) :
    s.failed = false ∧ o ≠ 0 ∧ s.phase = startPhase o
      ∧ ∀ u : State, start u o d = .next ((u.accepted o d).begin (.write b)) := by
  cases h with
  | init _ hf hp => exact ⟨hf, by decide, hp, start_init⟩
  | writeCommand _ _ hf hp => exact ⟨hf, by decide, hp, fun u => start_write (.inl rfl) u d⟩
  | writeData _ _ hf hp => exact ⟨hf, by decide, hp, fun u => start_write (.inr rfl) u d⟩

/-! ## The whole step -/

/-- Every step keeps the invariant. -/
theorem State.Inv.step {s t : State} (h : s.Inv) (hst : Machine.step s = .next t) : t.Inv := by
  have hc := h.clocked
  cases step_cases hst with
  | reset _ ht => exact ht ▸ inv_resetEdge hc.legal hc.busWrites
  | wait _ _ ht => exact ht ▸ hc
  | flying _ _ ht => exact ht ▸ hc.inFlight
  | answered c _ hs _ ha ht => exact ht ▸ hc.respond (by simp [hs, Seq.running]) ha.ne_busError
  | started o d b _ _ _ hb ht =>
    obtain ⟨hf, ho, hp, hstart⟩ := hb.checked
    exact hc.start hf ho hp (ht ▸ hstart s.clocked)
  | issued _ hs _ ht => exact ht ▸ hc.inFlight.issue hs (s.edge + 1)
  | acked _ hs _ _ ht => exact hc.ack hs ht
  | aborted _ _ _ he ht => exact hc.abort he (congrArg Host.Outcome.next ht.symm)
  | counted _ hs hd ht => exact ht ▸ hc.countDown hs hd
  | expired _ hs _ ht => exact hc.expire hs ht
  | phased p _ hs hp ht => exact hc.setPhase hs hp ht
  | taken _ hs _ ht => exact ht ▸ hc.responseTaken (by simp [hs, Seq.running])

end Sys2Proof.Machine
end

section
/-! SUPPORT. The STATUS byte, and the reset state as a reset edge (10_state.md R31, R38). -/

namespace Sys2Proof.Machine

/-- The STATUS byte is its fields side by side, so each is read back from it (R31). -/
theorem statusByte_fields (s : State) :
    s.statusByte.extractLsb' 0 2 = s.phase.code ∧ s.statusByte.getLsbD 2 = s.failed
      ∧ s.statusByte.getLsbD 3 = true ∧ s.statusByte.extractLsb' 4 4 = 0 := by
  unfold State.statusByte
  cases s.phase <;> cases s.failed <;> decide

/-- The reset state is a fixed point of a reset edge: what a reset edge gives holds of it (R38, R148). -/
theorem resetEdge_reset : State.reset.resetEdge = State.reset := rfl

theorem resetEdge_statusByte (s : State) : s.resetEdge.statusByte = 0x08 := by
  show (0b0000 : BitVec 4) ++ (0b1 : BitVec 1) ++ BitVec.ofBool false ++ Phase.code .uninitialized = 0x08
  decide

/-! ## The outputs that `rst` or `SEQ` decides (R35) -/

theorem reqReady_iff (s : State) (rst : Bool) : (s.outputs rst).reqReady = true ↔ rst = false ∧ s.seq = .idle := by
  simp [State.outputs]

theorem respValid_iff (s : State) (rst : Bool) : (s.outputs rst).respValid = true ↔ rst = false ∧ s.seq = .respond := by
  simp [State.outputs]

theorem busReqValid_iff (s : State) (rst : Bool) : (s.outputs rst).busReqValid = true ↔ rst = false ∧ s.seq = .issue := by
  simp [State.outputs]

theorem stBusy_iff (s : State) (rst : Bool) : (s.outputs rst).stBusy = true ↔ s.seq ≠ .idle := by
  simp [State.outputs]

end Sys2Proof.Machine
end

section
/-! SUPPORT. The statements about the state, settled. -/

namespace Sys2Proof.Machine

/-- Settles O43: the inversion of the step gives one lemma to cite for each thing an edge can do. -/
theorem stepKeepsTheInvariant : Obligations.StepKeepsTheInvariant := fun _ _ h hst => h.step hst

/-- Settles O31: each handshake is read off the arm of its sequencer state. -/
theorem handshakesCompleteAndHold : Obligations.HandshakesCompleteAndHold := by
  intro s t hr h
  simp only [busReqValid_iff, respValid_iff, reqReady_iff, true_and, ← Bool.not_eq_true]
  refine ⟨fun hs hb => ?_, fun hs hb => ?_, fun hs hb => ?_, fun hs hb => ?_, fun hs hv => ?_, fun hs hv => ?_,
    fun hs => step_request_of_busy hs⟩
  · rw [step_issue hr hs, issueEdge, if_neg hb] at h
    cases h
    exact ⟨hs, rfl, rfl⟩
  · rw [step_issue hr hs, issueEdge, if_pos hb] at h
    cases h
    exact ⟨rfl, rfl⟩
  · rw [step_respond hr hs, respondEdge, if_neg hb] at h
    cases h
    exact ⟨hs, rfl⟩
  · rw [step_respond hr hs, respondEdge, if_pos hb] at h
    cases h
    exact ⟨rfl, rfl⟩
  · rw [step_idle_request hr hs hv] at h
    exact ⟨h, accept_leaves_idle (s := s.clocked) hs h⟩
  · rw [step_idle_quiet hr hs (by simpa using hv)] at h
    cases h
    rfl

/-- Settles O35, from what a step does to `FAILED` and from the first check of the requests. -/
theorem failedIsSticky : Obligations.FailedIsSticky := by
  refine ⟨rfl, fun s t h => ⟨fun hr => ?_, step_failed h⟩, fun s hs hf => ⟨fun i => exec_of_failed hs hf, whenIdle_idle hs⟩⟩
  rw [step_rst hr] at h
  cases h
  rfl

/-- Settles O37: `PHASE` is written by the current phase action only, and the invariant says which phase the list has reached. -/
theorem phaseOnlyMovesForward : Obligations.PhaseOnlyMovesForward := by
  intro s t hinv h
  refine ⟨fun hr => ?_, fun hr hne => ?_⟩
  · rw [step_rst hr] at h
    cases h
    rfl
  · obtain ⟨hs, hact⟩ := (step_phase h hr).resolve_left hne
    obtain ⟨hop, hsucc⟩ := phase_action_succ hact
    have hp := hinv.progress (by rw [hs]; rfl)
    rw [← hp.inPhase] at hsucc
    exact ⟨hs, hop, hact, hsucc⟩

/-- Settles O49, by induction on the number of edges. -/
theorem parametersNeverChange : Obligations.ParametersNeverChange := by
  intro n
  induction n with
  | zero =>
    intro s t h
    cases h
    rfl
  | succ n ih =>
    intro s t h
    cases hs : step s with
    | next u =>
      rw [runSteps_succ hs] at h
      exact (ih u t h).trans (step_params hs)
    | fault r => simp [runSteps, hs] at h
    | refused r => simp [runSteps, hs] at h

/-- Settles O10. -/
theorem statusByteLayout : Obligations.StatusByteLayout := by
  intro s
  obtain ⟨hphase, hfailed, hone, hzero⟩ := statusByte_fields s
  exact ⟨hphase, hfailed, hone, hzero, resetEdge_reset ▸ resetEdge_statusByte _⟩

/-- Settles O23. -/
theorem busyRequestHasNoEffect : Obligations.BusyRequestHasNoEffect :=
  ⟨fun _ p rest v w hs => step_request_of_busy hs p rest v w, fun i _ hs => exec_of_busy hs i⟩

/-- Settles O33: four outputs are decided by `rst` or `SEQ`, and the others are registers. -/
theorem outputsFollowTheRegisters : Obligations.OutputsFollowTheRegisters := fun s rst =>
  ⟨reqReady_iff s rst, respValid_iff s rst, rfl, busReqValid_iff s rst, rfl, rfl, rfl, rfl, stBusy_iff s rst, fun _ => rfl⟩

/-- Settles O40: the reset state is itself what a reset edge gives. -/
theorem resetStateValues : Obligations.ResetStateValues := by
  intro t ht
  obtain ⟨s, rfl⟩ : ∃ s : State, t = s.resetEdge := by
    rcases ht with rfl | ⟨s, hr, h⟩
    · exact ⟨_, resetEdge_reset.symm⟩
    · rw [step_rst hr] at h
      exact ⟨_, (Host.Outcome.next.inj h).symm⟩
  exact ⟨rfl, rfl, rfl, rfl, rfl, rfl, rfl, rfl, rfl, rfl, rfl, rfl, rfl, rfl, rfl, rfl, resetEdge_statusByte s⟩

/-- Settles O42: the reset state is what a reset edge gives, and it has no bus write behind it. -/
theorem resetHasTheInvariant : Obligations.ResetHasTheInvariant :=
  show State.reset.resetEdge.Inv from inv_resetEdge Config.params_legal (List.forall_mem_nil _)

end Sys2Proof.Machine
end

section
/-! SUPPORT. One edge of a running operation: what it can do, what it leaves of the operation, how an operation ends, and the work
it takes off (20_memory.md R51, R52; 40_transport.md R76 to R83). -/

namespace Sys2Proof.Machine

/-! ## The operation and its list -/

/-- The two states are in the same operation: what fixes the action list is the same in both (R75). -/
structure State.SameOperation (s t : State) : Prop where
  params : t.params = s.params
  op     : t.op = s.op
  dbyte  : t.dbyte = s.dbyte

theorem State.SameOperation.actionList {s t : State} (h : s.SameOperation t) : t.actionList = s.actionList := by
  simp only [State.actionList, h.params, h.op, h.dbyte]

theorem State.SameOperation.trans {s t u : State} (h : s.SameOperation t) (h' : t.SameOperation u) : s.SameOperation u :=
  ⟨h'.params.trans h.params, h'.op.trans h.op, h'.dbyte.trans h.dbyte⟩

@[simp] theorem begin_dbyte (s : State) (a : Action) : (s.begin a).dbyte = s.dbyte := by cases a <;> rfl

theorem advance_sameOperation {s t : State} (h : advance s = .next t) : s.SameOperation t := by
  rcases advance_cases h with ⟨a, -, rfl⟩ | ⟨-, rfl⟩
  · constructor <;> simp
  · exact ⟨rfl, rfl, rfl⟩

/-- Going on in a list makes no bus write (R77). -/
theorem advance_busTrace {s t : State} (h : advance s = .next t) : t.busTrace = s.busTrace := by
  rcases advance_cases h with ⟨a, -, rfl⟩ | ⟨-, rfl⟩
  · simp
  · rfl

/-- The bytes of a list around one of its writes. -/
theorem writtenBytes_around {l : List Action} {i : Nat} {b : Byte} (h : l[i]? = some (.write b)) :
    writtenBytes l = writtenBytes (l.take i) ++ b :: writtenBytes (l.drop (i + 1)) := by
  conv_lhs => rw [← List.take_append_drop (i + 1) l, take_succ_of_getElem? h]
  simp [writtenBytes_append, writtenBytes]

/-! ## The end of an operation -/

/-- The operation has ended with OK: every action of its list is done, and the response counts its writes (R52, R77, R94). -/
structure State.Completed (s : State) : Prop where
  responds  : s.seq = .respond
  notFailed : s.failed = false
  isOp      : s.op ≠ 0
  atEnd     : s.act.toNat = s.actionList.length
  allDone   : s.HasDone s.actionList
  response  : s.resp = respWord .ok 0b00 s.wcnt

theorem State.Completed.ready {s : State} (h : s.Completed) : s.phase = .ready := by
  rw [h.allDone.inPhase]
  exact phaseAfter_actions _ _ h.isOp

/-- `u` is `s` with its current action done, at the last edge of that action, about to `advance` (R77). -/
structure State.ActionDone (s u : State) : Prop where
  same      : s.SameOperation u
  isOp      : u.op ≠ 0
  notFailed : u.failed = false
  act       : u.act = s.act
  inList    : u.act.toNat < 54
  done      : u.HasDone (u.actionList.take (u.act.toNat + 1))
  lastCycle : s.work = 1 + minCycles (s.actionList.drop (s.act.toNat + 1))

/-- Past the last action of its list an operation has ended with OK, and before it the operation runs on (R77). -/
theorem State.ActionDone.running_or_completed {s u t : State} (h : s.ActionDone u) (ht : advance u = .next t) :
    t.seq.running = true ∨ t.Completed := by
  rcases advance_cases ht with ⟨a, -, rfl⟩ | ⟨hend, rfl⟩
  · exact .inl (begin_running _ a)
  · have hact : (u.act + 1).toNat = u.act.toNat + 1 := act_succ_toNat (by have := h.inList; omega)
    have hdone := h.done
    rw [hend, List.take_length] at hdone
    exact .inr ⟨rfl, h.notFailed, h.isOp, hact.trans hend, ⟨hdone.counted, hdone.inPhase, hdone.inOrder⟩, rfl⟩

/-! ## The work left -/

/-- Starting an action leaves its fewest cycles and those of the actions after it (R78, R81, R83). -/
theorem work_begin {s : State} {a : Action} (h : a.Fits s.params) :
    (s.begin a).work = a.minCycles + minCycles (s.actionList.drop (s.act.toNat + 1)) := by
  cases a with
  | write b => rfl
  | delay d =>
    have hd : (s.begin (.delay d)).dcnt = d := loadDelay_of_lt h.2
    show max (s.begin (.delay d)).dcnt 1 + _ = max d 1 + _
    rw [hd]
    rfl
  | phase p => rfl

theorem work_pos_of_running {s : State} (h : s.seq.running = true) : 1 ≤ s.work := by
  cases hs : s.seq with
  | idle | respond => rw [hs] at h; cases h
  | issue | await | delay | setph => simp only [State.work, hs]; omega

/-- `advance` leaves the work of the actions after the current one (R77). -/
theorem work_of_advance {s t : State} (hl : s.params.Legal) (hact : s.act.toNat < 54) (h : advance s = .next t) :
    t.work = minCycles (s.actionList.drop (s.act.toNat + 1)) := by
  rcases advance_cases h with ⟨a, ha, rfl⟩ | ⟨hend, rfl⟩
  · have hfits : a.Fits s.params := actions_fits hl _ _ a (List.mem_of_getElem? ha)
    have hsucc : (s.act + 1).toNat = s.act.toNat + 1 := act_succ_toNat (by omega)
    obtain ⟨hi, rfl⟩ := List.getElem?_eq_some_iff.mp ha
    rw [work_begin (s := { s with act := s.act + 1 }) hfits, List.drop_eq_getElem_cons hi, minCycles_cons]
    show _ + minCycles (s.actionList.drop ((s.act + 1).toNat + 1)) = _
    rw [hsucc]
  · rw [hend, List.drop_length]
    rfl

theorem State.ActionDone.work_advance {s u t : State} (h : s.ActionDone u) (hl : s.params.Legal)
    (ht : advance u = .next t) : s.work = t.work + 1 := by
  rw [h.lastCycle, work_of_advance (h.same.params ▸ hl) h.inList ht, h.same.actionList, h.act, Nat.add_comm]

/-! ## One edge of a running operation -/

/-- The edge waits for the transport: a write is presented and not accepted, or accepted and not answered (R78, R80). -/
def State.WaitsForBus (s : State) : Prop :=
  (s.seq = .issue ∧ s.pins.busReqReady = false) ∨ (s.seq = .await ∧ s.pins.busRespValid = false)

/-- All that an edge without reset can do in a running operation. -/
inductive RunsTo (s t : State) : Prop where
  | waits : s.WaitsForBus → t = s.clocked.inFlight → RunsTo s t
  | issued : s.seq = .issue → s.pins.busReqReady = true →
      t = { s.clocked.inFlight with
            seq := .await, busTrace := ⟨s.edge + 1, s.params.devAddr, s.outb⟩ :: s.busTrace } → RunsTo s t
  | counted : s.seq = .delay → 1 < s.dcnt → t = { s.clocked with dcnt := s.dcnt - 1 } → RunsTo s t
  | advanced (u : State) : ¬ s.WaitsForBus → s.ActionDone u → advance u = .next t → RunsTo s t
  | aborted : s.SamplesBusError →
      t = { s.clocked.lcdUnknown with
            failed := true, resp := respWord .busError s.pins.busRespErr s.wcnt, seq := .respond } → RunsTo s t

/-- The work in the last cycle of an action is that cycle and what comes after. -/
theorem work_of_lastCycle {s : State} (h : s.seq = .await ∨ s.seq = .setph ∨ (s.seq = .delay ∧ s.dcnt ≤ 1)) :
    s.work = 1 + minCycles (s.actionList.drop (s.act.toNat + 1)) := by
  rcases h with hs | hs | ⟨hs, hd⟩
  · simp [State.work, hs]
  · simp [State.work, hs]
  · simp [State.work, hs, Nat.max_eq_right hd]

/-- The current action of a running operation is done once its effect is there and its last cycle is over. -/
theorem State.Progress.actionDone {s u : State} {a : Action} (h : s.Progress) (hsame : s.SameOperation u)
    (hf : u.failed = s.failed) (hact : u.act = s.act) (hcur : s.actionList[s.act.toNat]? = some a)
    (hdone : u.HasDone (s.actionList.take s.act.toNat ++ [a]))
    (hwork : s.work = 1 + minCycles (s.actionList.drop (s.act.toNat + 1))) : s.ActionDone u where
  same      := hsame
  isOp      := hsame.op ▸ h.isOp
  notFailed := hf.trans h.notFailed
  act       := hact
  inList    := hact ▸ index_lt_of_getElem? hcur
  done      := by rw [hsame.actionList, hact, take_succ_of_getElem? hcur]; exact hdone
  lastCycle := hwork

/-- The inversion of an edge of a running operation. -/
theorem State.Inv.running_cases {s t : State} (h : s.Inv) (hrun : s.seq.running = true) (hr : s.pins.rst = false)
    (hst : Machine.step s = .next t) : RunsTo s t := by
  have hp := h.progress hrun
  have hpc := h.clocked.progress hrun
  have resting : s.seq = .idle ∨ s.seq = .respond → RunsTo s t := fun hs => by
    rcases hs with hs | hs <;> (rw [hs] at hrun; cases hrun)
  cases step_cases hst with
  | reset hr' => rw [hr] at hr'; cases hr'
  | wait _ hs _ => exact resting (hs.imp And.left And.left)
  | flying _ hs ht => exact .waits hs ht
  | answered _ _ hs _ _ _ => exact resting (.inl hs)
  | started _ _ _ _ hs _ _ _ => exact resting (.inl hs)
  | issued _ hs hb ht => exact .issued hs hb ht
  | acked _ hs hv _ ht =>
    refine .advanced _ (by simp [State.WaitsForBus, hs, hv]) ?_ ht
    exact hp.actionDone ⟨rfl, rfl, rfl⟩ rfl rfl (hp.current_write (.inr hs)) (hpc.hasDone_ack hs) (work_of_lastCycle (.inl hs))
  | aborted _ hs hv he ht => exact .aborted ⟨hs, hv, he⟩ ht
  | counted _ hs hd ht => exact .counted hs hd ht
  | expired _ hs hd ht =>
    obtain ⟨d, hcur, -, -⟩ := hp.current_delay hs
    refine .advanced _ (by simp [State.WaitsForBus, hs]) ?_ ht
    exact hp.actionDone ⟨rfl, rfl, rfl⟩ rfl rfl hcur ((hpc.hasDone (by simp [hs])).delay d)
      (work_of_lastCycle (.inr (.inr ⟨hs, hd⟩)))
  | phased p _ hs hcur ht =>
    refine .advanced _ (by simp [State.WaitsForBus, hs]) ?_ ht
    exact hp.actionDone ⟨rfl, rfl, rfl⟩ rfl rfl hcur ((hpc.hasDone (by simp [hs])).setPhase p)
      (work_of_lastCycle (.inr (.inl hs)))
  | taken _ hs _ _ => exact resting (.inr hs)

/-- An edge of a running operation writes neither `OP` nor `DBYTE` (R55). -/
theorem RunsTo.sameOperation {s t : State} (h : RunsTo s t) : s.SameOperation t := by
  cases h with
  | waits _ ht | issued _ _ ht | counted _ _ ht | aborted _ ht => subst ht; exact ⟨rfl, rfl, rfl⟩
  | advanced u _ hu ht => exact hu.same.trans (advance_sameOperation ht)

/-- An edge that waits for the transport takes no work off, and any other takes one cycle off and runs on or completes the
operation, unless it samples a bus error (R78, R81, R83). -/
theorem RunsTo.waits_or_works {s t : State} (h : RunsTo s t) (hl : s.params.Legal) (he : ¬ s.SamplesBusError) :
    (s.WaitsForBus ∧ t.seq = s.seq ∧ t.work = s.work)
    ∨ (¬ s.WaitsForBus ∧ s.work = t.work + 1 ∧ (t.seq.running = true ∨ t.Completed)) := by
  cases h with
  | waits hw ht => subst ht; exact .inl ⟨hw, rfl, rfl⟩
  | issued hs hb ht =>
    subst ht
    refine .inr ⟨by simp [State.WaitsForBus, hs, hb], ?_, .inl rfl⟩
    simp only [State.work, hs]
    exact Nat.add_right_comm 1 1 _
  | counted hs hd ht =>
    subst ht
    refine .inr ⟨by simp [State.WaitsForBus, hs], ?_, .inl (by simp [hs, Seq.running])⟩
    show s.work = State.work { s with dcnt := s.dcnt - 1 } + 1
    have : max s.dcnt 1 = max (s.dcnt - 1) 1 + 1 := by omega
    simp only [State.work, hs, this]
    exact Nat.add_right_comm ..
  | advanced u hn hu ht => exact .inr ⟨hn, hu.work_advance hl ht, hu.running_or_completed ht⟩
  | aborted hb _ => exact absurd hb he

/-! ## The machine answers -/

/-- In SETPH the current action is a phase action (R83). -/
theorem State.Progress.current_phase {s : State} (h : s.Progress) (hs : s.seq = .setph) :
    ∃ p, s.actionList[s.act.toNat]? = some (.phase p) := by
  obtain ⟨a, ha, hp⟩ := h.current
  cases a with
  | write b => simp [State.Performs, hs] at hp
  | delay d => simp [State.Performs, hs] at hp
  | phase p => exact ⟨p, ha⟩

/-- A running operation has an answer to every edge: the two faults lie outside the invariant (log entry 8). -/
theorem State.Inv.step_answers {s : State} (h : s.Inv) (hrun : s.seq.running = true) (hr : s.pins.rst = false) :
    ∃ t, Machine.step s = .next t := by
  have hp := h.progress hrun
  have goesOn : ∀ u : State, u.actionList = s.actionList → u.act = s.act → ∃ t, advance u = .next t := by
    intro u hlist hact
    obtain ⟨a, ha, -⟩ := hp.current
    exact advance_answers (by rw [hlist, hact]; exact (List.getElem?_eq_some_iff.mp ha).1)
  cases hs : s.seq with
  | idle | respond => rw [hs] at hrun; cases hrun
  | issue =>
    rw [step_issue hr hs, issueEdge]
    split_ifs <;> exact ⟨_, rfl⟩
  | await =>
    rw [step_await hr hs, awaitEdge]
    split_ifs
    · exact goesOn _ rfl rfl
    · exact ⟨_, rfl⟩
    · exact ⟨_, rfl⟩
  | delay =>
    rw [step_delay hr hs, delayEdge]
    split_ifs
    · exact goesOn _ rfl rfl
    · exact ⟨_, rfl⟩
  | setph =>
    obtain ⟨p, hcur⟩ := hp.current_phase hs
    have hcur : s.clocked.actionList[s.clocked.act.toNat]? = some (.phase p) := hcur
    rw [step_setph hr hs, setPhaseEdge, hcur]
    exact goesOn _ rfl rfl

end Sys2Proof.Machine
end

section
/-! SUPPORT. The statements about the bus and the end of an operation, settled (20_memory.md). -/

namespace Sys2Proof.Machine

/-- Settles O48: of all that an edge can do, only the handshake in ISSUE writes the trace. -/
theorem busTraceGrowsByTheHandshake : Obligations.BusTraceGrowsByTheHandshake := by
  intro s t h
  cases step_cases h with
  | issued hr hs hb ht => subst ht; exact .inr ⟨hr, hs, hb, rfl, rfl⟩
  | reset _ ht | wait _ _ ht | flying _ _ ht | answered _ _ _ _ _ ht | aborted _ _ _ _ ht | counted _ _ _ ht
  | taken _ _ _ ht => subst ht; exact .inl rfl
  | started _ _ _ _ _ _ _ ht => subst ht; exact .inl rfl
  | acked _ _ _ _ ht | expired _ _ _ ht | phased _ _ _ _ ht =>
    have htrace := advance_busTrace ht
    exact .inl htrace

/-- At the write outstanding in AWAIT, the newest bus writes are the list's bytes up to and with it (R51, R94). -/
theorem State.Progress.issued_await {s : State} (h : s.Progress) (hs : s.seq = .await) :
    s.wcnt.toNat < (writtenBytes s.actionList).length
    ∧ ((s.busTrace.take (s.wcnt.toNat + 1)).map BusWrite.data).reverse
        = (writtenBytes s.actionList).take (s.wcnt.toNat + 1) := by
  have hin := h.inOrder
  simp only [State.issued, hs, if_true] at hin
  rw [hin, writtenBytes_around (h.current_write (.inr hs)), h.counted]
  simp [List.take_append]

/-- Settles O45: an operation stops running by an abort, or by `advance` past the end of its list. -/
theorem operationOutcome : Obligations.OperationOutcome := by
  intro s t hinv hrun hr hst hstop
  have hrt := hinv.running_cases hrun hr hst
  have hsame := hrt.sameOperation
  have runsOn : t.seq.running ≠ true := by simp [hstop]
  cases hrt with
  | waits _ ht => subst ht; exact absurd hrun runsOn
  | issued _ _ ht => subst ht; exact absurd rfl runsOn
  | counted _ _ ht => subst ht; exact absurd hrun runsOn
  | advanced u _ hu ht =>
    have hc := (hu.running_or_completed ht).resolve_left runsOn
    have hlist := hsame.actionList
    refine ⟨hc.responds, hsame.op, hsame.dbyte, .inl ⟨hc.notFailed, hc.ready, ?_, ?_, ?_, hc.response⟩⟩
    · exact hlist ▸ hc.atEnd
    · exact hlist ▸ hc.allDone.counted
    · exact hlist ▸ hc.allDone.inOrder
  | aborted he ht =>
    obtain ⟨hs, hv, hk⟩ := he
    obtain ⟨hlt, hbytes⟩ := (hinv.progress hrun).issued_await hs
    subst ht
    exact ⟨rfl, rfl, rfl, .inr ⟨rfl, hs, hv, hk, hlt, rfl, hbytes, rfl⟩⟩

/-! ## Transports of a bounded latency -/

/-- What the edge waits for, if it waits, comes after at most `j` edges (R80, R156). -/
def State.ServedWithin (s : State) (j : Nat) : Prop :=
  (s.seq = .issue → ∃ i, i ≤ j ∧ (s.pinsAt i).busReqReady = true)
  ∧ (s.seq = .await → ∃ i, i ≤ j ∧ (s.pinsAt i).busRespValid = true)

/-- The next edge of a served run. -/
theorem State.Served.head {s : State} {w n : Nat} (h : s.Served w n) (hn : 0 < n) :
    s.pins.rst = false ∧ ¬ s.SamplesBusError ∧ s.ServedWithin w := by
  obtain ⟨hr, hok, hissue, hawait⟩ := h 0 hn s rfl
  exact ⟨hr, fun ⟨hs, hv, he⟩ => he (hok hs hv), hissue, hawait⟩

theorem State.Served.tail {s t : State} {w n : Nat} (h : s.Served w (n + 1)) (hs : step s = .next t) : t.Served w n :=
  (Nat.add_comm n 1 ▸ h).drop (runSteps_succ hs 0)

/-- What does not come now comes later. -/
theorem exists_le_pred {P : Nat → Prop} {j : Nat} (h : ∃ i, i ≤ j ∧ P i) (h0 : ¬ P 0) : 0 < j ∧ ∃ i, i ≤ j - 1 ∧ P (i + 1) := by
  obtain ⟨i, hi, hP⟩ := h
  cases i with
  | zero => exact absurd hP h0
  | succ i => exact ⟨by omega, i, by omega, hP⟩

/-- An edge of waiting is one of the at most `j`. -/
theorem State.ServedWithin.wait {s t : State} {j : Nat} (h : s.ServedWithin j) (hw : s.WaitsForBus)
    (hst : step s = .next t) (hs : t.seq = s.seq) : 0 < j ∧ t.ServedWithin (j - 1) := by
  unfold State.ServedWithin
  simp only [step_pinsAt hst, hs]
  rcases hw with ⟨hq, hb⟩ | ⟨hq, hb⟩
  · obtain ⟨hj, hi⟩ := exists_le_pred (h.1 hq) (by simp [hb])
    exact ⟨hj, fun _ => hi, by simp [hq]⟩
  · obtain ⟨hj, hi⟩ := exists_le_pred (h.2 hq) (by simp [hb])
    exact ⟨hj, by simp [hq], fun _ => hi⟩

/-- A running operation completes within `n` edges if the budget of `w + 1` edges for each cycle of work fits, of which `w - j` are
used up by the present wait. -/
theorem State.Inv.completes {w : Nat} (n j : Nat) (s : State) (h : s.Inv) (hrun : s.seq.running = true)
    (hj : s.ServedWithin j) (hbudget : (w + 1) * s.work + j ≤ n + w) (hserved : s.Served w n) :
    ∃ m t, m ≤ n ∧ runSteps m s = .next t ∧ t.Completed ∧ s.SameOperation t := by
  induction n generalizing j s with
  | zero =>
    have := Nat.le_mul_of_pos_right (w + 1) (work_pos_of_running hrun)
    omega
  | succ n ih =>
    obtain ⟨hr, he, -⟩ := hserved.head (Nat.succ_pos n)
    obtain ⟨t, hst⟩ := h.step_answers hrun hr
    have hrt := h.running_cases hrun hr hst
    have goesOn : ∀ j', t.seq.running = true → t.ServedWithin j' → (w + 1) * t.work + j' ≤ n + w →
        ∃ m u, m ≤ n + 1 ∧ runSteps m s = .next u ∧ u.Completed ∧ s.SameOperation u := by
      intro j' hrun' hj' hbudget'
      obtain ⟨m, u, hm, hu, hc, hsame⟩ := ih j' t (h.step hst) hrun' hj' hbudget' (hserved.tail hst)
      exact ⟨m + 1, u, Nat.succ_le_succ hm, (runSteps_succ hst m).trans hu, hc, hrt.sameOperation.trans hsame⟩
    rcases hrt.waits_or_works h.legal he with ⟨hw, hseq, hwork⟩ | ⟨-, hwork, hrun' | hc⟩
    · obtain ⟨hpos, hj'⟩ := hj.wait hw hst hseq
      exact goesOn (j - 1) (hseq ▸ hrun) hj' (by rw [hwork]; omega)
    · rw [hwork, Nat.mul_succ] at hbudget
      have := Nat.le_mul_of_pos_right (w + 1) (work_pos_of_running hrun')
      obtain ⟨-, -, hj'⟩ := (hserved.tail hst).head (by omega)
      exact goesOn w hrun' hj' (by omega)
    · exact ⟨1, t, Nat.succ_le_succ (Nat.zero_le n), runSteps_succ hst 0, hc, hrt.sameOperation⟩

/-- Settles O47: each cycle of the work left takes at most `w + 1` edges, and an operation that runs out of work has ended with OK. -/
theorem slowTransportsCompleteToo : Obligations.SlowTransportsCompleteToo := by
  intro w s hinv hrun hserved
  have hpos := Nat.mul_pos (Nat.succ_pos w) (work_pos_of_running hrun)
  obtain ⟨-, -, hj⟩ := hserved.head hpos
  obtain ⟨m, t, hm, ht, hc, hsame⟩ := hinv.completes ((w + 1) * s.work) w s hrun hj le_rfl hserved
  have hlist := hsame.actionList
  exact ⟨m, t, hm, ht, hc.responds, hc.notFailed, hc.ready, hsame.op, hsame.dbyte, hlist ▸ hc.allDone.counted, hc.response,
    hlist ▸ hc.allDone.inOrder⟩

end Sys2Proof.Machine
end

section
/-! SUPPORT. The decoder and the encoder as inverses of each other, and the rows of the opcode table as the rows of the requests
(30_encoding.md R63 to R65). -/

namespace Sys2Proof

/-! ## Decoding and encoding -/

/-- A word is the encoding of the request that has its fields (R63). -/
theorem encode_eq_of_fields {w : Word} {i : Instr} (hop : opField w = i.opcode) (hrsv : rsvField w = 0)
    (hdata : dataField w = i.operand) : encode i = w := by
  rw [word_eq_fields w, hop, hrsv, hdata]
  rfl

theorem decode_encode (i : Instr) : decode (encode i) = .legal i := by
  cases i <;> simp [decode, Instr.opcode, Instr.operand]

/-- The four legal branches of the decoder each fix the three fields. -/
theorem encode_of_decode {w : Word} {i : Instr} (h : decode w = .legal i) : encode i = w := by
  unfold decode at h
  split_ifs at h with hrsv hstatus hdata hinit hdata hcommand hwrite <;> cases h
  · exact encode_eq_of_fields hstatus (not_not.mp hrsv) hdata
  · exact encode_eq_of_fields hinit (not_not.mp hrsv) hdata
  · exact encode_eq_of_fields hcommand (not_not.mp hrsv) rfl
  · exact encode_eq_of_fields hwrite (not_not.mp hrsv) rfl

theorem decode_eq_legal_iff {w : Word} {i : Instr} : decode w = .legal i ↔ encode i = w :=
  ⟨encode_of_decode, fun h => h ▸ decode_encode i⟩

theorem illegal_of_not_legal {w : Word} (h : ∀ i, decode w ≠ .legal i) : ∃ why, decode w = .illegal why := by
  cases hw : decode w with
  | legal i => exact absurd hw (h i)
  | illegal why => exact ⟨why, rfl⟩

/-- A word decodes to the request whose opcode and operand are the outer digits of its number (R65). -/
theorem decode_eq_legal_iff_digits {w : Word} {i : Instr} :
    decode w = .legal i ↔
      w.toNat / 256 % 16 = 0 ∧ w.toNat / 4096 = i.opcode.toNat ∧ w.toNat % 256 = i.operand.toNat := by
  rw [decode_eq_legal_iff, ← rsvField_toNat, ← opField_toNat, ← dataField_toNat]
  constructor
  · rintro rfl
    simp
  · rintro ⟨hrsv, hop, hdata⟩
    exact encode_eq_of_fields (BitVec.eq_of_toNat_eq hop) (BitVec.eq_of_toNat_eq hrsv) (BitVec.eq_of_toNat_eq hdata)

theorem Instr.opcode_toNat_lt (i : Instr) : i.opcode.toNat < 4 := by cases i <;> simp [Instr.opcode]

/-- The requests with an opcode up to 1 have no operand (R64). -/
theorem Instr.operand_eq_zero {i : Instr} (h : i.opcode.toNat ≤ 1) : i.operand = 0 := by
  cases i with
  | status => rfl
  | init => rfl
  | writeCommand d => simp [Instr.opcode] at h
  | writeData d => simp [Instr.opcode] at h

/-! ## The rows of the opcode table -/

theorem word_eq_iff_fields {v w : Word} :
    v = w ↔ opField v = opField w ∧ rsvField v = rsvField w ∧ dataField v = dataField w := by
  constructor
  · rintro rfl
    exact ⟨rfl, rfl, rfl⟩
  · rintro ⟨hop, hrsv, hdata⟩
    rw [word_eq_fields v, hop, hrsv, hdata, ← word_eq_fields]

/-- A word matches a row when it does field by field. -/
theorem matchesWord_iff_fields {r : OpRow} {w : Word} :
    r.matchesWord w = true ↔
      opField w &&& opField r.mask = opField r.pattern ∧ rsvField w &&& rsvField r.mask = rsvField r.pattern
        ∧ dataField w &&& dataField r.mask = dataField r.pattern := by
  rw [OpRow.matchesWord, beq_iff_eq, word_eq_iff_fields]
  simp only [opField, rsvField, dataField, BitVec.extractLsb'_and]

/-- Each request's row is in the table and matches its encoding (R64). -/
theorem row_matches_encode (i : Instr) : i.row ∈ opcodeTable ∧ i.row.matchesWord (encode i) = true := by
  cases i with
  | status => exact Laws.EncodedRow.status
  | init => exact Laws.EncodedRow.init
  | writeCommand d => exact Laws.EncodedRow.writeCommand d
  | writeData d => exact Laws.EncodedRow.writeData d

/-- A row's mask covers `OP` and `RSV`, and `DATA` where its request has no operand, so a matching word is a request of that row
(R64). -/
theorem exists_encode_of_matchesWord {r : OpRow} {w : Word} (hr : r ∈ opcodeTable) (h : r.matchesWord w = true) :
    ∃ i : Instr, i.row = r ∧ encode i = w := by
  obtain ⟨hop, hrsv, hdata⟩ := matchesWord_iff_fields.mp h
  have covered : ∀ {n : Nat} {x p : BitVec n}, x &&& BitVec.allOnes n = p → x = p := BitVec.and_allOnes.symm.trans
  simp only [opcodeTable, List.mem_cons, List.not_mem_nil, or_false] at hr
  rcases hr with rfl | rfl | rfl | rfl
  · exact ⟨.status, rfl, encode_eq_of_fields (covered hop) (covered hrsv) (covered hdata)⟩
  · exact ⟨.init, rfl, encode_eq_of_fields (covered hop) (covered hrsv) (covered hdata)⟩
  · exact ⟨.writeCommand (dataField w), rfl, encode_eq_of_fields (covered hop) (covered hrsv) rfl⟩
  · exact ⟨.writeData (dataField w), rfl, encode_eq_of_fields (covered hop) (covered hrsv) rfl⟩

end Sys2Proof
end

section
/-! SUPPORT. Assembler lines: a character as the number it stands for, and the words of the lines (30_encoding.md R73, R74). -/

namespace Sys2Proof.Machine

/-- The word of a write: its `OP` over the operand (R63, R64). -/
theorem encode_writeCommand (d : Byte) : encode (.writeCommand d) = 0x2000 ||| d.setWidth 16 := by revert d; decide

theorem encode_writeData (d : Byte) : encode (.writeData d) = 0x3000 ||| d.setWidth 16 := by revert d; decide

/-- A number up to 255 is the same operand as a byte and in the word. -/
theorem setWidth_ofNat_byte {n : Nat} (h : n ≤ 255) : (BitVec.ofNat 8 n).setWidth 16 = BitVec.ofNat 16 n :=
  BitVec.setWidth_ofNat_of_le_of_lt (by decide) (by omega)

/-- The byte of an immediate, or an assembly error (R73). -/
def immByte (imm : Imm) : Option Byte := if imm.wellFormed then some (immValue imm) else none

theorem immByte_number {n : Nat} (h : n ≤ 255) : immByte (.number n) = some (BitVec.ofNat 8 n) :=
  if_pos (decide_eq_true h)

@[simp] theorem immByte_number_eq_none {n : Nat} (h : 255 < n) : immByte (.number n) = none :=
  if_neg (by simpa [Imm.wellFormed] using h)

/-- An ASCII character stands for its code. -/
theorem immByte_character {c : Char} (h : c.toNat < 128) : immByte (.character c) = immByte (.number c.toNat) :=
  (if_pos (decide_eq_true h)).trans (immByte_number (by omega)).symm

@[simp] theorem immByte_character_eq_none {c : Char} (h : 128 ≤ c.toNat) : immByte (.character c) = none :=
  if_neg (by simpa [Imm.wellFormed] using h)

/-! ## The lines with an immediate -/

theorem assemble_writeCommand (imm : Imm) :
    assemble (.writeCommand imm) = (immByte imm).map fun b => [encode (.writeCommand b)] :=
  (apply_ite (Option.map fun b => [encode (.writeCommand b)]) _ (some (immValue imm)) none).symm

theorem assemble_writeData (imm : Imm) :
    assemble (.writeData imm) = (immByte imm).map fun b => [encode (.writeData b)] :=
  (apply_ite (Option.map fun b => [encode (.writeData b)]) _ (some (immValue imm)) none).symm

theorem assemble_setDdram (imm : Imm) :
    assemble (.setDdram imm) = (immByte imm).map fun b => [encode (.writeCommand (0x80 ||| (b &&& 0x7F)))] :=
  (apply_ite (Option.map fun b => [encode (.writeCommand (0x80 ||| (b &&& 0x7F)))]) _ (some (immValue imm)) none).symm

theorem assemble_writeCommand_number {n : Nat} (h : n ≤ 255) :
    assemble (.writeCommand (.number n)) = some [0x2000 ||| BitVec.ofNat 16 n] := by
  rw [assemble_writeCommand, immByte_number h, Option.map_some, encode_writeCommand, setWidth_ofNat_byte h]

theorem assemble_writeData_number {n : Nat} (h : n ≤ 255) :
    assemble (.writeData (.number n)) = some [0x3000 ||| BitVec.ofNat 16 n] := by
  rw [assemble_writeData, immByte_number h, Option.map_some, encode_writeData, setWidth_ofNat_byte h]

/-- `SET_DDRAM` sets bit 7 over seven bits of the address (R74). -/
theorem ddramByte_eq (n : Nat) : (0x80 ||| (BitVec.ofNat 8 n &&& 0x7F) : Byte) = BitVec.ofNat 8 (0x80 + n % 128) := by
  have h : ∀ b : Byte, 0x80 ||| (b &&& 0x7F) = BitVec.ofNat 8 (0x80 + b.toNat % 128) := by decide
  rw [h, BitVec.toNat_ofNat, Nat.mod_mod_of_dvd n (by decide)]

theorem assemble_setDdram_number {n : Nat} (h : n ≤ 255) :
    assemble (.setDdram (.number n)) = assemble (.writeCommand (.number (0x80 + n % 128))) := by
  rw [assemble_setDdram, immByte_number h, assemble_writeCommand, immByte_number (by omega), Option.map_some, Option.map_some,
    ddramByte_eq]

/-- A string assembles to a write of each of its characters, and one character without a code spoils it (R74). -/
theorem assemble_writeStr (cs : List Char) :
    assemble (.writeStr cs) = assembleProgram (cs.map fun c => .writeData (.character c)) := by
  induction cs with
  | nil => rfl
  | cons c cs ih =>
    have hcons : (Source.writeStr (c :: cs)).wellFormed
        = ((Source.writeData (.character c)).wellFormed && (Source.writeStr cs).wellFormed) := rfl
    rw [List.map_cons, assembleProgram, ← ih]
    simp only [assemble, hcons]
    cases (Source.writeData (.character c)).wellFormed with
    | false => rfl
    | true => cases (Source.writeStr cs).wellFormed <;> rfl

end Sys2Proof.Machine
end

section
/-! SUPPORT. The bytes of the wire: the strobe and latch bytes, and where they are written (30_encoding.md R60, R61). -/

namespace Sys2Proof.Machine

theorem mem_writtenBytes {b : Byte} {l : List Action} : b ∈ writtenBytes l ↔ Action.write b ∈ l := by
  induction l with
  | nil => simp [writtenBytes]
  | cons a l ih => cases a <;> simp [writtenBytes, ih]

/-- Every wire byte is the strobe or the latch byte of some nibble (R60, R61). -/
theorem eq_strobe_or_latch_of_mem_wireBytes {b : Byte} (h : b ∈ wireBytes) :
    ∃ (n : Nibble) (rs : Bool), b = strobe n rs ∨ b = latch rs := by
  simp only [wireBytes, List.mem_append, List.mem_map, List.mem_range, List.mem_cons, List.not_mem_nil, or_false] at h
  have row : ∀ n < 16, BitVec.ofNat 8 (16 * n + 0x0C) = strobe (BitVec.ofNat 4 n) false
      ∧ BitVec.ofNat 8 (16 * n + 0x0E) = strobe (BitVec.ofNat 4 n) true := by decide
  rcases h with (⟨n, hn, rfl⟩ | ⟨n, hn, rfl⟩) | rfl | rfl
  · exact ⟨BitVec.ofNat 4 n, false, .inl (row n hn).1⟩
  · exact ⟨BitVec.ofNat 4 n, true, .inl (row n hn).2⟩
  · exact ⟨0, false, .inr rfl⟩
  · exact ⟨0, true, .inr rfl⟩

/-- Any nibble is the low nibble of a byte, so each strobe byte is written by some SEND_BYTE, and each latch byte by all (R92). -/
theorem nibble_bytes_mem_sendByte (p : Params) (n : Nibble) (rs : Bool) :
    strobe n rs ∈ writtenBytes (sendByte p (n.setWidth 8) rs) ∧ latch rs ∈ writtenBytes (sendByte p (n.setWidth 8) rs) := by
  have hlo : loNibble (n.setWidth 8) = n := by revert n; decide
  simp [writtenBytes_sendByte, hlo]

/-- The masks of R59 and the fields of R58 give the same strobe byte. -/
theorem strobe_eq_fields (n : Nibble) (rs : Bool) :
    strobe n rs = n ++ 1#1 ++ 1#1 ++ BitVec.ofBool rs ++ 0#1 := by revert n rs; decide

theorem latch_eq_fields (rs : Bool) : latch rs = 0#4 ++ 1#1 ++ 0#1 ++ BitVec.ofBool rs ++ 0#1 := by revert rs; decide

theorem flagRS_eq_shift (rs : Bool) : flagRS rs = (BitVec.ofBool rs).setWidth 8 <<< 1 := by revert rs; decide

end Sys2Proof.Machine
end

section
/-! SUPPORT. The statements about the encodings, settled. -/

namespace Sys2Proof.Machine

/-- Settles O2. -/
theorem decodeAndEncodeAgree : Obligations.DecodeAndEncodeAgree :=
  ⟨fun i _ => decode_encode i, fun _ _ => encode_of_decode⟩

/-- Settles O1: the decoder by the digits of the word's number; a word with no request's digits is illegal. -/
theorem decoderOfEveryWord : Obligations.DecoderOfEveryWord := by
  intro w
  refine ⟨fun hrsv => illegal_of_not_legal fun i h => hrsv (decode_eq_legal_iff_digits.mp h).1,
    fun hrsv hop hdata => decode_eq_legal_iff_digits.mpr ⟨hrsv, hop, hdata⟩,
    fun hrsv hop hdata => decode_eq_legal_iff_digits.mpr ⟨hrsv, hop, hdata⟩,
    fun hrsv hop => decode_eq_legal_iff_digits.mpr ⟨hrsv, hop, by simp [Instr.operand]⟩,
    fun hrsv hop => decode_eq_legal_iff_digits.mpr ⟨hrsv, hop, by simp [Instr.operand]⟩,
    fun hop hdata => illegal_of_not_legal fun i h => ?_, fun hop => illegal_of_not_legal fun i h => ?_⟩
  · obtain ⟨-, hop', hdata'⟩ := decode_eq_legal_iff_digits.mp h
    rw [Instr.operand_eq_zero (hop' ▸ hop)] at hdata'
    exact hdata hdata'
  · obtain ⟨-, hop', -⟩ := decode_eq_legal_iff_digits.mp h
    exact absurd i.opcode_toNat_lt (by omega)

/-- Settles O3: a word that matches a row is the encoding of a request of that row, and it encodes one request only. -/
theorem requestsAreTheTableRows : Obligations.RequestsAreTheTableRows := by
  intro w
  have own : ∀ i, decode w = .legal i → i.row ∈ opcodeTable ∧ i.row.matchesWord w = true := fun i h =>
    encode_of_decode h ▸ row_matches_encode i
  refine ⟨⟨fun ⟨i, h⟩ => ⟨i.row, own i h⟩, fun ⟨r, hr, h⟩ => ?_⟩, own, fun r₁ hr₁ r₂ hr₂ h₁ h₂ => ?_⟩
  · obtain ⟨i, -, hi⟩ := exists_encode_of_matchesWord hr h
    exact ⟨i, decode_eq_legal_iff.mpr hi⟩
  · obtain ⟨i, hi, hw⟩ := exists_encode_of_matchesWord hr₁ h₁
    obtain ⟨j, hj, hv⟩ := exists_encode_of_matchesWord hr₂ h₂
    have hij : Decoded.legal i = .legal j := (decode_eq_legal_iff.mpr hw).symm.trans (decode_eq_legal_iff.mpr hv)
    rw [← hi, ← hj, Decoded.legal.inj hij]

/-- Settles O5: every line with an immediate is settled by the immediate's byte. -/
theorem assemblerLines : Obligations.AssemblerLines := by
  refine ⟨by decide, by decide, fun n h => ⟨assemble_writeCommand_number h, assemble_writeData_number h⟩,
    fun c h => ?ascii, fun n h => ?large, fun n h => if_pos (decide_eq_true h), assemble_writeStr, by decide, by decide,
    fun a h => ?ddram, fun a _ h => assemble_setDdram_number h, fun c h => ?notAscii,
    fun n h => if_neg (by simpa [Source.wellFormed] using h)⟩
  case ascii =>
    have hbyte : c.toNat ≤ 255 := by omega
    rw [assemble_writeCommand (.character c), assemble_writeData, assemble_setDdram, immByte_character h,
      ← assemble_writeCommand, ← assemble_writeData, ← assemble_setDdram]
    refine ⟨assemble_writeCommand_number hbyte, assemble_writeData_number hbyte, ?_⟩
    rw [assemble_setDdram_number hbyte, Nat.mod_eq_of_lt h]
  case large => simp [assemble_writeCommand, assemble_writeData, assemble_setDdram, h]
  case ddram => rw [assemble_setDdram_number (by omega), Nat.mod_eq_of_lt (by omega)]
  case notAscii => simp [assemble_writeCommand, assemble_writeData, assemble_setDdram, h]

/-- Settles O7: the lists write strobe and latch bytes only, and every strobe and latch byte is in the list of some byte. -/
theorem emittedBytesAreThe34 : Obligations.EmittedBytesAreThe34 := by
  refine ⟨rfl, by decide, fun p op d b h => ?_, fun p b h => ?_⟩
  · exact forall_mem_actions (P := Action.OnWire) strobe_mem_wireBytes latch_mem_wireBytes (fun _ => trivial)
      (fun _ => trivial) p op d (.write b) (mem_writtenBytes.mp h)
  · obtain ⟨n, rs, hb⟩ := eq_strobe_or_latch_of_mem_wireBytes h
    obtain ⟨hstrobe, hlatch⟩ := nibble_bytes_mem_sendByte p n rs
    have hmem : b ∈ writtenBytes (sendByte p (n.setWidth 8) rs) := by
      rcases hb with rfl | rfl
      · exact hstrobe
      · exact hlatch
    cases rs with
    | false => exact ⟨n.setWidth 8, .inl hmem⟩
    | true => exact ⟨n.setWidth 8, .inr hmem⟩

/-- Settles O4. -/
theorem wordsWrittenOutDecode : Obligations.WordsWrittenOutDecode :=
  ⟨decode_encode .status, decode_encode .init, decode_encode (.writeCommand 0x28), decode_encode (.writeData 0x48),
    by decide⟩

/-- Settles O6. -/
theorem strobeAndLatchBytes : Obligations.StrobeAndLatchBytes := fun _ n rs =>
  ⟨rfl, flagRS_eq_shift rs ▸ rfl, flagRS_eq_shift rs ▸ rfl, strobe_eq_fields n rs, latch_eq_fields rs⟩

/-- Settles O11. -/
theorem responseWordLayout : Obligations.ResponseWordLayout := fun c k i =>
  ⟨respWord_code c k i, respWord_kind c k i, respWord_reserved c k i, respWord_info c k i, rfl, rfl, rfl, rfl, rfl, rfl⟩

end Sys2Proof.Machine
end

section
/-! SUPPORT. The step as one equation per arm of the sequencer, what going on in a list leaves, and the waits and delays that take
several edges (40_transport.md R76 to R83). -/

namespace Sys2Proof.Machine

/-! ## The arms of the step, one equation per condition (R76) -/

theorem step_issue_ready {s : State} (hr : s.pins.rst = false) (hs : s.seq = .issue) (hb : s.pins.busReqReady = true) :
    step s = .next { s.clocked.inFlight with
      seq := .await, busTrace := ⟨s.edge + 1, s.params.devAddr, s.outb⟩ :: s.busTrace } := by
  rw [step_issue hr hs, issueEdge, if_pos hb]
  rfl

theorem step_await_ok {s : State} (hr : s.pins.rst = false) (hs : s.seq = .await) (hv : s.pins.busRespValid = true)
    (he : s.pins.busRespErr = 0b00) : step s = advance { s.clocked.delivered with wcnt := s.wcnt + 1 } := by
  rw [step_await hr hs, awaitEdge, if_pos hv, if_pos he]
  rfl

theorem step_await_error {s : State} (hr : s.pins.rst = false) (hs : s.seq = .await) (hv : s.pins.busRespValid = true)
    (he : s.pins.busRespErr ≠ 0b00) : step s = abort s.clocked s.pins.busRespErr := by
  rw [step_await hr hs, awaitEdge, if_pos hv, if_neg he]

/-- An edge that waits for the transport leaves the write in flight (R78, R80). -/
theorem step_of_waitsForBus {s : State} (hr : s.pins.rst = false) (hw : s.WaitsForBus) :
    step s = .next s.clocked.inFlight := by
  rcases hw with ⟨hs, hb⟩ | ⟨hs, hb⟩
  · rw [step_issue hr hs, issueEdge, if_neg (by simp [hb])]
  · rw [step_await hr hs, awaitEdge, if_neg (by simp [hb])]

theorem step_delay_last {s : State} (hr : s.pins.rst = false) (hs : s.seq = .delay) (hd : s.dcnt ≤ 1) :
    step s = advance s.clocked := by
  rw [step_delay hr hs, delayEdge, if_pos (by simpa using hd)]

theorem step_delay_count {s : State} (hr : s.pins.rst = false) (hs : s.seq = .delay) (hd : 1 < s.dcnt) :
    step s = .next { s.clocked with dcnt := s.dcnt - 1 } := by
  rw [step_delay hr hs, delayEdge, if_neg (by simpa using hd)]
  rfl

theorem step_setph_phase {s : State} {p : Phase} (hr : s.pins.rst = false) (hs : s.seq = .setph)
    (hp : s.actionList[s.act.toNat]? = some (.phase p)) : step s = advance { s.clocked with phase := p } := by
  have hp : s.clocked.actionList[s.clocked.act.toNat]? = some (.phase p) := hp
  rw [step_setph hr hs, setPhaseEdge, hp]

theorem step_respond_taken {s : State} (hr : s.pins.rst = false) (hs : s.seq = .respond) (hb : s.pins.respReady = true) :
    step s = .next s.clocked.responseTaken := by
  rw [step_respond hr hs, respondEdge, if_pos hb]

theorem step_respond_wait {s : State} (hr : s.pins.rst = false) (hs : s.seq = .respond) (hb : s.pins.respReady = false) :
    step s = .next s.clocked := by
  rw [step_respond hr hs, respondEdge, if_neg (by simp [hb])]

/-- Outside AWAIT the step does not look at the transport's response (R79). -/
theorem step_response_outside_await {s : State} (hs : s.seq ≠ .await) (p : Pins) (rest : List Pins) (v : Bool)
    (e : BitVec 2) :
    step { s with inputs := { p with busRespValid := v, busRespErr := e } :: rest }
      = step { s with inputs := p :: rest } := by
  simp only [step, pins_cons]
  cases hq : s.seq with
  | await => exact absurd hq hs
  | idle | issue | delay | setph | respond => rfl

/-- Every edge from a state with the invariant is answered, and keeps it (R76; log entry 8). -/
theorem State.Inv.step_next {s : State} (h : s.Inv) : ∃ t, Machine.step s = .next t ∧ t.Inv := by
  suffices hanswers : ∃ t, Machine.step s = .next t from hanswers.imp fun t ht => ⟨ht, h.step ht⟩
  cases hr : s.pins.rst with
  | true => exact ⟨_, step_rst hr⟩
  | false =>
    cases hs : s.seq with
    | idle =>
      cases hv : s.pins.reqValid with
      | true =>
        rw [step_idle_request hr hs hv]
        exact accept_answers (s := s.clocked) hs _
      | false => exact ⟨_, step_idle_quiet hr hs hv⟩
    | issue | await | delay | setph => exact h.step_answers (by rw [hs]; rfl) hr
    | respond =>
      cases hb : s.pins.respReady with
      | true => exact ⟨_, step_respond_taken hr hs hb⟩
      | false => exact ⟨_, step_respond_wait hr hs hb⟩

/-! ## Going on in a list (R77) -/

@[simp] theorem begin_expander (s : State) (a : Action) : (s.begin a).expander = s.expander := by cases a <;> rfl
@[simp] theorem begin_strobed (s : State) (a : Action) : (s.begin a).strobed = s.strobed := by cases a <;> rfl
@[simp] theorem begin_lcd (s : State) (a : Action) : (s.begin a).lcd = s.lcd := by cases a <;> rfl

/-- Going on in a list counts `ACT` up and leaves `WCNT` and the LCD side alone. -/
theorem advance_act_wcnt_lcd {s t : State} (h : advance s = .next t) :
    t.act = s.act + 1 ∧ t.wcnt = s.wcnt ∧ t.expander = s.expander ∧ t.strobed = s.strobed ∧ t.lcd = s.lcd := by
  rcases advance_cases h with ⟨a, -, rfl⟩ | ⟨-, rfl⟩
  · simp
  · exact ⟨rfl, rfl, rfl, rfl, rfl⟩

/-- The action is a `P`. -/
def Action.isPhase : Action → Bool
  | .write _ => false
  | .delay _ => false
  | .phase _ => true

@[simp] theorem Action.isPhase_phase (p : Phase) : (Action.phase p).isPhase = true := rfl

@[simp] theorem Action.isPhase_kind (a : Action) : a.kind.isPhase = a.isPhase := by cases a <;> rfl

theorem initKinds_no_adjacent_phases :
    ∀ i < 54, ¬ (initKinds[i]?.any Action.isPhase = true ∧ initKinds[i + 1]?.any Action.isPhase = true) := by decide

/-- No list has two phase actions in a row (R104). -/
theorem not_isPhase_after_phase {s : State} {i : Nat} {p : Phase} {a : Action} (hp : s.actionList[i]? = some (.phase p))
    (ha : s.actionList[i + 1]? = some a) : a.isPhase = false := by
  obtain ⟨hop, -⟩ := phase_action_succ hp
  have hlist : s.actionList = initActions s.params := by rw [State.actionList, hop, actions_init]
  have hkind : ∀ j : Nat, initKinds[j]? = s.actionList[j]?.map Action.kind := fun j => by
    rw [← map_kind_initActions s.params, List.getElem?_map, hlist]
  have h := initKinds_no_adjacent_phases i (index_lt_of_getElem? hp)
  rw [hkind, hkind, hp, ha] at h
  simpa using h

/-- `advance` from a phase action leaves SETPH (R83). -/
theorem advance_leaves_setph {s t : State} {p : Phase} (hp : s.actionList[s.act.toNat]? = some (.phase p))
    (h : advance s = .next t) : t.seq ≠ .setph := by
  rcases advance_cases h with ⟨a, ha, rfl⟩ | ⟨-, rfl⟩
  · have hnot := not_isPhase_after_phase hp ha
    cases a with
    | write b => nofun
    | delay d => nofun
    | phase q => cases hnot
  · nofun

/-! ## Runs of edges that wait -/

theorem runSteps_one (s : State) : runSteps 1 s = step s := by
  cases hs : step s <;> simp [runSteps, hs]

/-- The run that goes on for one edge more. -/
theorem runSteps_succ_last {s t : State} {n : Nat} (h : runSteps n s = .next t) : runSteps (n + 1) s = step t :=
  (runSteps_add h 1).trans (runSteps_one t)

theorem State.NoReset.mono {s : State} {m n : Nat} (h : s.NoReset n) (hmn : m ≤ n) : s.NoReset m :=
  fun k hk => h k (Nat.lt_of_lt_of_le hk hmn)

/-- The inputs at the end of a run, by their number from its start. -/
theorem runSteps_pins {s t : State} {n : Nat} (h : runSteps n s = .next t) : t.pins = s.pinsAt n :=
  runSteps_pinsAt h 0

/-- Within a run without reset, the next edge has none either. -/
theorem State.NoReset.after {s t : State} {n : Nat} (h : s.NoReset (n + 1)) (hrun : runSteps n s = .next t) :
    t.pins.rst = false := by
  rw [runSteps_pins hrun]
  exact h n n.lt_succ_self

/-- The block rests at this edge: it presents a response that the host does not take, or it is in IDLE without a request
(R34). -/
def State.RestsWith (s : State) (p : Pins) : Prop :=
  (s.seq = .respond ∧ p.respReady = false) ∨ (s.seq = .idle ∧ p.reqValid = false)

theorem step_of_rests {s : State} (hr : s.pins.rst = false) (h : s.RestsWith s.pins) : step s = .next s.clocked := by
  rcases h with ⟨hs, hb⟩ | ⟨hs, hv⟩
  · exact step_respond_wait hr hs hb
  · exact step_idle_quiet hr hs hv

/-- Any number of edges at which the block rests (R76, R155). -/
theorem run_of_rests {n : Nat} {s : State} (hr : s.NoReset n) (h : ∀ k, k < n → s.RestsWith (s.pinsAt k)) :
    runSteps n s = .next (s.elapsed n) := by
  induction n with
  | zero => rw [elapsed_zero, runSteps_zero]
  | succ n ih =>
    have hrun := ih (hr.mono n.le_succ) fun k hk => h k (Nat.lt_succ_of_lt hk)
    rw [runSteps_succ_last hrun, step_of_rests (hr.after hrun) (runSteps_pins hrun ▸ h n n.lt_succ_self), clocked_elapsed]

/-- One more edge of flight, after which more of the outputs have settled (R47). -/
theorem inFlight_outputsTo_settle (s : State) (m : Byte) :
    (s.outputsTo (settle m s.expander s.outb)).inFlight
      = s.outputsTo (settle (m ||| Config.outputsChanged s.edge) s.expander s.outb) := by
  simp only [State.inFlight, State.outputsTo, settle_settle, observe_settle_settle]

/-- Any number of edges that wait for the transport: only the outputs settle (R37, R47, R80). -/
theorem run_of_waitsForBus {n : Nat} {s : State} (hr : s.NoReset n)
    (h : ∀ k, k < n → (s.seq = .issue ∧ (s.pinsAt k).busReqReady = false)
      ∨ (s.seq = .await ∧ (s.pinsAt k).busRespValid = false)) :
    ∃ m : Byte, runSteps n s = .next ((s.elapsed n).outputsTo (settle m s.expander s.outb)) := by
  induction n with
  | zero =>
    refine ⟨0#8, ?_⟩
    rw [settle_none, elapsed_zero, runSteps_zero]
    simp [State.outputsTo]
  | succ n ih =>
    obtain ⟨m, hrun⟩ := ih (hr.mono n.le_succ) fun k hk => h k (Nat.lt_succ_of_lt hk)
    have hwaits : State.WaitsForBus ((s.elapsed n).outputsTo (settle m s.expander s.outb)) := by
      unfold State.WaitsForBus
      rw [runSteps_pins hrun]
      exact h n n.lt_succ_self
    rw [runSteps_succ_last hrun, step_of_waitsForBus (hr.after hrun) hwaits]
    exact ⟨_, congrArg Host.Outcome.next
      ((inFlight_outputsTo_settle (s.elapsed n).clocked m).trans (by rw [clocked_elapsed]; rfl))⟩

/-! ## Delays (R81) -/

/-- The state after `j` cycles of a delay that has more than `j` (R81). -/
def State.delayed (s : State) (j : Nat) : State := { s.elapsed j with dcnt := s.dcnt - j }

/-- Before its last cycle a delay counts down. -/
theorem run_delayed {s : State} (hs : s.seq = .delay) {j : Nat} (hr : s.NoReset j) (hj : j < max s.dcnt 1) :
    runSteps j s = .next (s.delayed j) := by
  induction j with
  | zero => rfl
  | succ j ih =>
    have hrun := ih (hr.mono j.le_succ) (Nat.lt_of_succ_lt hj)
    have hlt : 1 < (s.delayed j).dcnt := by
      show 1 < s.dcnt - j
      omega
    rw [runSteps_succ_last hrun, step_delay_count (s := s.delayed j) (hr.after hrun) hs hlt]
    show _ = Host.Outcome.next { s.elapsed (j + 1) with dcnt := s.dcnt - (j + 1) }
    rw [← clocked_elapsed, Nat.sub_add_eq]
    rfl

/-- The last cycle of a delay advances. -/
theorem run_delay_through {s : State} (hs : s.seq = .delay) (hr : s.NoReset (max s.dcnt 1)) :
    runSteps (max s.dcnt 1) s = advance { s.elapsed (max s.dcnt 1) with dcnt := min s.dcnt 1 } := by
  obtain ⟨j, hj⟩ : ∃ j, max s.dcnt 1 = j + 1 := ⟨max s.dcnt 1 - 1, by omega⟩
  have hleft : s.dcnt - j = min s.dcnt 1 := by omega
  rw [hj] at hr ⊢
  have hrun := run_delayed hs (hr.mono j.le_succ) (by omega)
  have hlast : (s.delayed j).dcnt ≤ 1 := by
    show s.dcnt - j ≤ 1
    omega
  rw [runSteps_succ_last hrun, step_delay_last (s := s.delayed j) (hr.after hrun) hs hlast,
    ← clocked_elapsed, ← hleft]
  rfl

/-- An OK with a delay next in the list enters the delay (R76, R77). -/
theorem step_ok_into_delay {s : State} {d : Nat} (hr : s.pins.rst = false) (hs : s.seq = .await)
    (hv : s.pins.busRespValid = true) (he : s.pins.busRespErr = 0b00)
    (hdelay : s.actionList[s.act.toNat + 1]? = some (.delay d)) (hfit : d < 2 ^ s.params.dcntW) :
    ∃ t, step s = .next t ∧ t.seq = .delay ∧ t.dcnt = d ∧ t.params = s.params
      ∧ t.actionList[t.act.toNat + 1]? = s.actionList[s.act.toNat + 2]? := by
  have hact : (s.act + 1).toNat = s.act.toNat + 1 := act_succ_toNat (by have := index_lt_of_getElem? hdelay; omega)
  have hstep := (step_await_ok hr hs hv he).trans
    (advance_of_some (s := { s.clocked.delivered with wcnt := s.wcnt + 1 }) hdelay)
  refine ⟨_, hstep, rfl, loadDelay_of_lt hfit, rfl, ?_⟩
  show s.actionList[(s.act + 1).toNat + 1]? = _
  rw [hact]

/-! ## The bytes of the write operations -/

/-- The strobe bytes of SEND_BYTE as masks of its byte (R60, R66, R92). -/
theorem strobe_hiNibble (d : Byte) (rs : Bool) : strobe (hiNibble d) rs = (d &&& 0xF0) ||| (0x0C ||| flagRS rs) := by
  revert d rs
  decide

theorem strobe_loNibble (d : Byte) (rs : Bool) : strobe (loNibble d) rs = ((d <<< 4) &&& 0xF0) ||| (0x0C ||| flagRS rs) := by
  revert d rs
  decide

/-- SEND_BYTE, action by action (R86, R92). -/
theorem sendByte_eq (p : Params) (d : Byte) (rs : Bool) :
    sendByte p d rs
      = [.write ((d &&& 0xF0) ||| (0x0C ||| flagRS rs)), .delay p.dStrobe, .write (latch rs), .delay p.dSettle,
         .write (((d <<< 4) &&& 0xF0) ||| (0x0C ||| flagRS rs)), .delay p.dStrobe, .write (latch rs), .delay p.dSettle] := by
  rw [← strobe_hiNibble, ← strobe_loNibble]
  rfl

/-- The fewest cycles of SEND_BYTE: four writes and the two delays of each nibble (R78, R81). -/
theorem minCycles_sendByte (p : Params) (d : Byte) (rs : Bool) :
    minCycles (sendByte p d rs) = 8 + 2 * (max p.dStrobe 1 + max p.dSettle 1) := by
  simp only [sendByte, sendNibble, minCycles, Action.minCycles, List.cons_append, List.nil_append, List.map_cons,
    List.map_nil, List.sum_cons, List.sum_nil]
  omega

end Sys2Proof.Machine
end

section
/-! SUPPORT. The statements about the sequencer, settled (40_transport.md). -/

namespace Sys2Proof.Machine

/-- Settles O24: by R155 every edge of the busy run presents the word of the first, so the edge in IDLE does too. -/
theorem heldRequestIsAccepted : Obligations.HeldRequestIsAccepted := by
  intro n s u hv hr hrun hbusy hu
  have held : ∀ k, k ≤ n → (s.pinsAt k).reqValid = true ∧ (s.pinsAt k).reqWord = s.pins.reqWord := by
    intro k
    induction k with
    | zero => exact fun _ => ⟨hv, rfl⟩
    | succ k ih =>
      intro hk
      obtain ⟨hvalid, hword⟩ := ih (Nat.le_of_succ_le hk)
      obtain ⟨v, hrunv, hne, hhold⟩ := hbusy k hk
      have hnext := hhold (runSteps_pins hrunv ▸ hvalid) hne
      rw [runSteps_pinsAt hrunv, runSteps_pins hrunv, hword] at hnext
      exact hnext
  obtain ⟨hvalid, hword⟩ := runSteps_pins hrun ▸ held n le_rfl
  exact ⟨hvalid, hword, hword ▸ step_idle_request (hr.after hrun) hu hvalid⟩

/-- Settles O27: a rest only lets the clock run, and a wait for the transport lets the byte in flight settle as well. -/
theorem waitsKeepEveryRegister : Obligations.WaitsKeepEveryRegister := fun _ _ hr =>
  ⟨fun h => run_of_rests hr fun k hk => h.imp (And.imp_right (· k hk)) (And.imp_right (· k hk)),
    fun h => run_of_waitsForBus hr fun k hk => h.imp (And.imp_right (· k hk)) (And.imp_right (· k hk))⟩

/-- Settles O28. -/
theorem delayTakesExactlyItsCycles : Obligations.DelayTakesExactlyItsCycles := fun _ hs hr =>
  ⟨fun _ hj => run_delayed hs (hr.mono hj.le) hj, run_delay_through hs hr⟩

/-- Settles O29: the OK enters the delay, whose `d` cycles follow, and its last one enters the write. -/
theorem gapBetweenWritesIsTheDelay : Obligations.GapBetweenWritesIsTheDelay := by
  intro s d b hs hv he hdelay hwrite hd hfit hr
  obtain ⟨t, ht, hseq, hdcnt, hparams, hnext⟩ := step_ok_into_delay hr.head hs hv he hdelay hfit
  have hmax : max t.dcnt 1 = d := by omega
  have hr' := hr.tail ht
  refine ⟨fun j h1 hj => ?_, ?_⟩
  · obtain ⟨i, rfl⟩ : ∃ i, j = i + 1 := ⟨j - 1, by omega⟩
    have hrun := run_delayed (j := i) hseq (hr'.mono (by omega)) (by omega)
    exact ⟨t.delayed i, (runSteps_succ ht i).trans hrun, fun rst => by simp [State.outputs, State.delayed, hseq]⟩
  · have hrun := run_delay_through hseq (hmax.symm ▸ hr')
    rw [hmax] at hrun
    have hadv := advance_of_some (s := { t.elapsed d with dcnt := min t.dcnt 1 }) (hnext.trans hwrite)
    exact ⟨_, ((runSteps_succ ht d).trans hrun).trans hadv, rfl, congrArg Params.devAddr hparams, rfl⟩

/-- Settles O30: the step is `advance` of the state with `PHASE` written, and no list has two phase actions in a row. -/
theorem phaseActionTakesOneEdge : Obligations.PhaseActionTakesOneEdge := by
  intro s p hinv hr hs hp
  have hstep := step_setph_phase hr hs hp
  obtain ⟨t, ht⟩ := hinv.step_answers (by rw [hs]; rfl) hr
  have hadv := hstep.symm.trans ht
  obtain ⟨hact, hwcnt, hlcd⟩ := advance_act_wcnt_lcd hadv
  obtain ⟨-, hphase, -⟩ := advance_frame hadv
  have htrace := advance_busTrace hadv
  exact ⟨hstep, t, ht, hphase, hact, advance_leaves_setph (s := { s.clocked with phase := p }) hp hadv, htrace, hwcnt, hlcd⟩

/-- Settles O44, by induction on the number of edges. -/
theorem runsNeverStop : Obligations.RunsNeverStop := by
  intro n
  induction n with
  | zero => exact fun s h => ⟨s, rfl, h⟩
  | succ n ih =>
    intro s h
    obtain ⟨u, hu, hinv⟩ := h.step_next
    rw [runSteps_succ hu]
    exact ih u hinv

/-- Settles O46: an edge of a running operation either waits for the transport or takes one cycle off. -/
theorem workCountsDown : Obligations.WorkCountsDown := by
  intro s hinv hrun hr hok
  obtain ⟨t, ht⟩ := hinv.step_answers hrun hr
  have hnoError : ¬ s.SamplesBusError := fun ⟨hs, hv, he⟩ => he (hok hs hv)
  refine ⟨t, ht, ?_⟩
  rcases (hinv.running_cases hrun hr ht).waits_or_works hinv.legal hnoError with ⟨hw, hseq, hwork⟩ | ⟨hn, hwork, hend⟩
  · refine ⟨by omega, by omega, fun hi ha => ?_, fun _ _ => hwork, fun _ _ => hwork, .inl (hseq ▸ hrun)⟩
    rcases hw with ⟨hs, hb⟩ | ⟨hs, hb⟩
    · simp [hi hs] at hb
    · simp [ha hs] at hb
  · exact ⟨by omega, by omega, fun _ _ => hwork, fun hs hb => absurd (.inl ⟨hs, hb⟩) hn,
      fun hs hb => absurd (.inr ⟨hs, hb⟩) hn, hend.imp_right State.Completed.responds⟩

/-- Settles O8: both lists are SEND_BYTE of the byte. -/
theorem writeOperationLists : Obligations.WriteOperationLists := by
  intro p d
  have hcommand := (actions_writeCommand p d).trans (sendByte_eq p d false)
  have hdata := (actions_writeData p d).trans (sendByte_eq p d true)
  have hcycles := (congrArg minCycles (actions_writeCommand p d)).trans (minCycles_sendByte p d false)
  have hcycles' := (congrArg minCycles (actions_writeData p d)).trans (minCycles_sendByte p d true)
  exact ⟨hcommand, hdata, congrArg List.length hcommand, congrArg List.length hdata, congrArg writtenBytes hcommand,
    congrArg writtenBytes hdata, hcycles, hcycles'.trans hcycles.symm⟩

/-- Settles O25: one equation for each arm. -/
theorem sequencerArms : Obligations.SequencerArms := by
  rintro s _ hr rfl
  exact ⟨step_idle_request hr, step_idle_quiet hr, step_issue_ready hr,
    fun hs hb => step_of_waitsForBus hr (.inl ⟨hs, hb⟩), step_await_ok hr, step_await_error hr,
    fun hs hb => step_of_waitsForBus hr (.inr ⟨hs, hb⟩), step_delay_last hr, step_delay_count hr,
    fun _ => step_setph_phase hr, step_respond_taken hr, step_respond_wait hr⟩

/-- Settles O26. -/
theorem advanceEntersTheNextAction : Obligations.AdvanceEntersTheNextAction := by
  rintro s _ rfl
  refine ⟨advance_at_end, fun _ => advance_of_some, fun d ha hd => ?_, fun _ => advance_of_some⟩
  rw [advance_of_some ha, State.begin, loadDelay_of_lt hd]

/-- Settles O32. -/
theorem strayResponseIsIgnored : Obligations.StrayResponseIsIgnored :=
  fun _ p rest v e hs => step_response_outside_await hs p rest v e

end Sys2Proof.Machine
end

section
/-! SUPPORT. A whole operation in the immediate environment, from its start to its response (40_transport.md R77, 41_driver.md R93,
R101). -/

namespace Sys2Proof.Machine

/-! ## Any operation -/

/-- The newest bus writes after a performed list are its bytes, in order, all to `DEV_ADDR` (R40, R51). -/
theorem performedAll_newest (l : List Action) (s : State) :
    (performedAll s l).busTrace.drop (writtenBytes l).length = s.busTrace
    ∧ (∀ w ∈ (performedAll s l).busTrace.take (writtenBytes l).length, w.addr = s.params.devAddr)
    ∧ (((performedAll s l).busTrace.take (writtenBytes l).length).map BusWrite.data).reverse = writtenBytes l := by
  obtain ⟨new, htrace, hdata, haddr⟩ := performedAll_busTrace l s
  have hlen : (writtenBytes l).length = new.length := by simp [← hdata]
  rw [htrace, hlen, List.drop_left, List.take_left]
  exact ⟨rfl, haddr, hdata⟩

/-- `u` is `s` after the whole list `l` of the operation `o` with the byte `d`, answered with OK (R52, R77, R116). -/
structure State.RanAll (s u : State) (o : BitVec 2) (d : Byte) (l : List Action) : Prop where
  responds  : u.seq = .respond
  response  : u.resp = respWord .ok 0b00 (BitVec.ofNat 8 (writtenBytes l).length)
  phase     : u.phase = phaseAfter s.phase l
  failed    : u.failed = s.failed
  op        : u.op = o
  dbyte     : u.dbyte = d
  act       : u.act = BitVec.ofNat 6 l.length
  wcnt      : u.wcnt = BitVec.ofNat 8 (writtenBytes l).length
  params    : u.params = s.params
  edge      : u.edge = s.edge + minCycles l
  older     : u.busTrace.drop (writtenBytes l).length = s.busTrace
  addressed : ∀ w ∈ u.busTrace.take (writtenBytes l).length, w.addr = s.params.devAddr
  newer     : ((u.busTrace.take (writtenBytes l).length).map BusWrite.data).reverse = writtenBytes l

/-- What an operation's performed list leaves, register by register. -/
theorem ranAll_finish (s : State) (o : BitVec 2) (d : Byte) {l : List Action} (hfit : ∀ a ∈ l, a.Fits s.params) :
    s.RanAll (performedAll (s.accepted o d) l).finish o d l := by
  have hwcnt := (performedAll_wcnt l (s.accepted o d)).trans (BitVec.zero_add _)
  obtain ⟨holder, haddressed, hnewer⟩ := performedAll_newest l (s.accepted o d)
  exact {
    responds := rfl
    response := congrArg (respWord .ok 0b00) hwcnt
    phase := performedAll_phase l _
    failed := performedAll_failed l _
    op := performedAll_op l _
    dbyte := performedAll_dbyte l _
    act := (performedAll_act l _).trans (BitVec.zero_add _)
    wcnt := hwcnt
    params := performedAll_params l _
    edge := performedAll_edge l _ hfit
    older := holder
    addressed := haddressed
    newer := hnewer }

/-- A started operation in the immediate environment has ended with OK after the fewest cycles of its list. -/
theorem run_operation {s : State} (hlegal : s.params.Legal) {o : BitVec 2} {d : Byte} {l : List Action}
    (hl : actions s.params o d = l) (him : (entered (s.accepted o d) l).Immediate (minCycles l)) :
    ∃ u, runSteps (minCycles l) (entered (s.accepted o d) l) = .next u ∧ s.RanAll u o d l := by
  have hfit : ∀ a ∈ l, a.Fits s.params := hl ▸ actions_fits hlegal o d
  exact ⟨_, run_list l (s.accepted o d) hl (Nat.zero_le _) hfit him, ranAll_finish s o d hfit⟩

/-! ## The write operations -/

/-- In Ready without a failure a write is started (R96, R98, R121). -/
theorem acceptWrite_ready {s : State} (hs : s.seq = .idle) (hf : s.failed = false) (hp : s.phase = .ready) (o : BitVec 2)
    (d : Byte) : acceptWrite o d s = start s o d := by
  simp [acceptWrite, whenIdle_idle hs, hf, hp]

theorem actions_write {o : BitVec 2} (h : o = opWriteCommand ∨ o = opWriteData) (p : Params) (d : Byte) :
    actions p o d = sendByte p d (rsOfOp o) := by
  rcases h with rfl | rfl <;> rfl

/-- With the delays of R8 SEND_BYTE takes its four writes and its four delays (R93). -/
theorem minCycles_sendByte_of_legal {p : Params} (h : p.Legal) (d : Byte) (rs : Bool) :
    minCycles (sendByte p d rs) = 8 + 2 * (p.dStrobe + p.dSettle) := by
  obtain ⟨hstrobe, -⟩ := Params.Legal.delay_fits h (.inl rfl)
  obtain ⟨hsettle, -⟩ := Params.Legal.delay_fits h (.inr (.inl rfl))
  rw [minCycles_sendByte, Nat.max_eq_left hstrobe, Nat.max_eq_left hsettle]

/-- Both writes run to completion, with the RS of their operation in the four bytes (R93, R96, R98, R101). -/
theorem write_runs_to_completion {o : BitVec 2} (ho : o = opWriteCommand ∨ o = opWriteData) {s t : State} {d : Byte} {n : Nat}
    (hlegal : s.params.Legal) (hs : s.seq = .idle) (hf : s.failed = false) (hp : s.phase = .ready)
    (hn : n = 8 + 2 * (s.params.dStrobe + s.params.dSettle))
    (ht : t = (s.accepted o d).begin (.write ((d &&& 0xF0) ||| (0x0C ||| flagRS (rsOfOp o))))) (him : t.Immediate n) :
    acceptWrite o d s = .next t
    ∧ ∃ u, runSteps n t = .next u
      ∧ u.seq = .respond ∧ u.resp = 0x0004 ∧ u.phase = .ready ∧ u.failed = false
      ∧ u.op = o ∧ u.dbyte = d ∧ u.act = 8 ∧ u.wcnt = 4 ∧ u.params = s.params ∧ u.edge = s.edge + n
      ∧ u.busTrace.drop 4 = s.busTrace
      ∧ (∀ w ∈ u.busTrace.take 4, w.addr = s.params.devAddr)
      ∧ ((u.busTrace.take 4).map BusWrite.data).reverse
        = [(d &&& 0xF0) ||| (0x0C ||| flagRS (rsOfOp o)), latch (rsOfOp o),
           ((d <<< 4) &&& 0xF0) ||| (0x0C ||| flagRS (rsOfOp o)), latch (rsOfOp o)] := by
  rw [← minCycles_sendByte_of_legal hlegal d (rsOfOp o)] at hn
  rw [← strobe_hiNibble] at ht ⊢
  rw [← strobe_loNibble]
  subst hn ht
  obtain ⟨u, hu, h⟩ := run_operation hlegal (actions_write ho s.params d) him
  have hfour : respWord .ok 0b00 4 = 0x0004 := by decide
  exact ⟨(acceptWrite_ready hs hf hp o d).trans (start_write ho s d), u, hu, h.responds, h.response.trans hfour,
    h.phase.trans hp, h.failed.trans hf, h.op, h.dbyte, h.act, h.wcnt, h.params, h.edge, h.older, h.addressed, h.newer⟩

end Sys2Proof.Machine
end

section
/-! SUPPORT. The statements about the driver, settled (41_driver.md). -/

namespace Sys2Proof.Machine

/-- Settles O18: SEND_BYTE with RS = 0. -/
theorem writeCommandRunsToCompletion : Obligations.WriteCommandRunsToCompletion :=
  fun _ _ _ _ => write_runs_to_completion (.inl rfl)

/-- Settles O19: SEND_BYTE with RS = 1. -/
theorem writeDataRunsToCompletion : Obligations.WriteDataRunsToCompletion :=
  fun _ _ _ _ => write_runs_to_completion (.inr rfl)

end Sys2Proof.Machine
end

section
/-! SUPPORT. INIT as an operation: the cycles of its list, its start, the phase it has reached at each of its writes (42_init.md
R104, R108, R110, R116); and the LCD side after any operation. -/

namespace Sys2Proof.Machine

/-! ## The cycles of INIT's list -/

theorem minCycles_append (l m : List Action) : minCycles (l ++ m) = minCycles l + minCycles m := by
  simp [minCycles]

@[simp] theorem minCycles_phase (q : Phase) : minCycles [.phase q] = 1 := rfl

/-- With the delays of R8 SEND_NIBBLE takes its two writes and its two delays (R86). -/
theorem minCycles_sendNibble_of_legal {p : Params} (h : p.Legal) (n : Nibble) (rs : Bool) :
    minCycles (sendNibble p n rs) = 4 + (p.dStrobe + p.dSettle) := by
  obtain ⟨hstrobe, -⟩ := Params.Legal.delay_fits h (.inl rfl)
  obtain ⟨hsettle, -⟩ := Params.Legal.delay_fits h (.inr (.inl rfl))
  simp only [sendNibble, minCycles, Action.minCycles, Nat.max_eq_left hstrobe, Nat.max_eq_left hsettle, List.map_cons,
    List.map_nil, List.sum_cons, List.sum_nil]
  omega

/-- A raw nibble of the bring-up takes its wait on top of SEND_NIBBLE (R107). -/
theorem minCycles_initNibble_of_legal {p : Params} (h : p.Legal) {w : Nat}
    (hw : w = p.dInit1 ∨ w = p.dInit2 ∨ w = p.dInit3) :
    minCycles (initNibble p w) = 4 + (p.dStrobe + p.dSettle) + w := by
  obtain ⟨hwait, -⟩ := Params.Legal.delay_fits h (.inr (.inr hw))
  rw [initNibble, minCycles_append, minCycles_sendNibble_of_legal h]
  simp [minCycles, Action.minCycles, Nat.max_eq_left hwait]

/-- With the delays of R8 INIT takes its 24 writes, 24 delays, three waits and three phase actions (R116). -/
theorem minCycles_initActions_of_legal {p : Params} (h : p.Legal) :
    minCycles (initActions p)
      = 48 + 12 * (p.dStrobe + p.dSettle) + p.dInit1 + p.dInit2 + p.dInit3 + 3 := by
  simp only [initActions, convergenceActions, fourBitActions, configurationActions, minCycles_append, minCycles_phase,
    minCycles_initNibble_of_legal h (.inl rfl), minCycles_initNibble_of_legal h (.inr (.inl rfl)),
    minCycles_initNibble_of_legal h (.inr (.inr rfl)), minCycles_sendNibble_of_legal h, minCycles_sendByte_of_legal h]
  omega

/-- INIT writes 24 bytes, whatever its parameters are (R106). -/
theorem writtenBytes_initActions_length (p : Params) : (writtenBytes (initActions p)).length = 24 := by
  rw [← writtenBytes_length_kind, map_kind_initActions]
  decide

/-! ## The start of INIT -/

/-- In Uninitialized without a failure INIT is started (R104, R121). -/
theorem execInit_uninitialized {s : State} (hs : s.seq = .idle) (hf : s.failed = false) (hp : s.phase = .uninitialized) :
    execInit s = .next ((s.accepted opInit 0x00).begin (.write (strobe 0x3 false))) := by
  rw [execInit, whenIdle_idle hs, if_neg (by simp [hf]), if_neg (by simp [hp]), start_init]

/-! ## The phase at each write of INIT -/

/-- Before its write number `k`, INIT's list has reached the phase of `k`'s part (R110). -/
theorem initKinds_phase_at_write : ∀ i < 54, initKinds[i]? = some (.write 0) →
    ((writtenBytes (initKinds.take i)).length ≤ 5 → phaseAfter .uninitialized (initKinds.take i) = .uninitialized)
    ∧ (6 ≤ (writtenBytes (initKinds.take i)).length → (writtenBytes (initKinds.take i)).length ≤ 7 →
        phaseAfter .uninitialized (initKinds.take i) = .eightBitTransition)
    ∧ (8 ≤ (writtenBytes (initKinds.take i)).length → (writtenBytes (initKinds.take i)).length ≤ 23
        ∧ phaseAfter .uninitialized (initKinds.take i) = .fourBitMode) := by decide

/-- `PHASE` while a write of INIT is outstanding, by the number of the write (R108, R110). -/
theorem State.Progress.phase_at_init_write {s : State} (h : s.Progress) (hop : s.op = opInit) (hs : s.seq = .await) :
    (s.wcnt.toNat ≤ 5 → s.phase = .uninitialized)
    ∧ (6 ≤ s.wcnt.toNat → s.wcnt.toNat ≤ 7 → s.phase = .eightBitTransition)
    ∧ (8 ≤ s.wcnt.toNat → s.wcnt.toNat ≤ 23 ∧ s.phase = .fourBitMode) := by
  have hlist : s.actionList = initActions s.params := by rw [State.actionList, hop, actions_init]
  have hcur := h.current_write (.inr hs)
  have hkind : initKinds[s.act.toNat]? = some (.write 0) := by
    rw [← map_kind_initActions s.params, List.getElem?_map, ← hlist, hcur]
    rfl
  have hpart := initKinds_phase_at_write _ (index_lt_of_getElem? hcur) hkind
  rw [← map_kind_initActions s.params, ← List.map_take, phaseAfter_kind, writtenBytes_length_kind, ← hlist,
    ← h.counted] at hpart
  have hphase := h.inPhase
  rw [hop] at hphase
  rwa [hphase]

/-! ## The LCD side after an operation -/

/-- A started operation in the immediate environment ends with OK, and the LCD side has seen its bytes, one after another
(R52, R114; log entry 9). -/
theorem run_operation_seen {s : State} (hlegal : s.params.Legal) {o : BitVec 2} {d : Byte} {l : List Action}
    (hl : actions s.params o d = l) (him : (entered (s.accepted o d) l).Immediate (minCycles l)) :
    ∃ u, runSteps (minCycles l) (entered (s.accepted o d) l) = .next u ∧ s.RanAll u o d l
      ∧ (u.expander, u.strobed, u.lcd) = (writtenBytes l).foldl seen (s.expander, s.strobed, s.lcd) := by
  have hfit : ∀ a ∈ l, a.Fits s.params := hl ▸ actions_fits hlegal o d
  exact ⟨_, run_list l (s.accepted o d) hl (Nat.zero_le _) hfit him, ranAll_finish s o d hfit,
    performedAll_lcd l (s.accepted o d)⟩

/-- INIT in the immediate environment, from its first strobe to its response (R104, R116). -/
theorem run_init {s : State} {n : Nat} (hlegal : s.params.Legal)
    (hn : n = 48 + 12 * (s.params.dStrobe + s.params.dSettle) + s.params.dInit1 + s.params.dInit2 + s.params.dInit3 + 3)
    (him : ((s.accepted opInit 0x00).begin (.write (strobe 0x3 false))).Immediate n) :
    ∃ u, runSteps n ((s.accepted opInit 0x00).begin (.write (strobe 0x3 false))) = .next u
      ∧ s.RanAll u opInit 0x00 (initActions s.params)
      ∧ (u.expander, u.strobed, u.lcd)
        = (writtenBytes (initActions s.params)).foldl seen (s.expander, s.strobed, s.lcd) := by
  rw [← minCycles_initActions_of_legal hlegal] at hn
  rw [hn] at him ⊢
  exact run_operation_seen hlegal (actions_init s.params 0x00) him

end Sys2Proof.Machine
end

section
/-! SUPPORT. The LCD controller's interface state: its update by numbers, and what the nibbles of INIT and of a byte make of it
(42_init.md R114, R115). -/

namespace Sys2Proof.Machine

/-! ## The update by numbers (R114) -/

theorem isFunctionSet_eq_decide (x : Nibble) : isFunctionSet x = decide (x.toNat / 2 = 1) := by
  revert x
  decide

theorem afterFunctionSet_eq_ite (x : Nibble) : afterFunctionSet x = if x.toNat % 2 = 1 then .e8 else .f4h := by
  revert x
  decide

/-- A strobe byte leaves the controller alone and its latch byte latches the nibble, whichever outputs change first (R47, R114,
R164). -/
theorem observe_strobe_latch (v u : Nibble) (rs : Bool) (e m₁ m₂ : Byte) (l : Lcd) :
    observe (settle m₂ (strobe v rs) (latch rs)) (latch rs) v
      (observe (strobe v rs) (settle m₂ (strobe v rs) (latch rs)) v
        (observe (settle m₁ e (strobe v rs)) (strobe v rs) u (observe e (settle m₁ e (strobe v rs)) u l)))
      = latchNibble l v := by
  rw [observe_settle, observe_settle]
  simp [observe]

/-! ## The nibbles of the bring-up (R115) -/

/-- A first `0x3` leaves the controller in 8-bit mode, or awaiting a high nibble, or holding the `0x3`. -/
theorem latchNibble_0x3_cases (l : Lcd) :
    latchNibble l 0x3 = .e8 ∨ latchNibble l 0x3 = .f4h ∨ latchNibble l 0x3 = .f4l 0x3 := by
  cases l with
  | e8 => exact .inl rfl
  | f4h => exact .inr (.inr rfl)
  | f4l h =>
    cases hset : isFunctionSet h with
    | false => exact .inr (.inl (by simp [latchNibble, hset]))
    | true =>
      simp only [latchNibble, hset, if_true, afterFunctionSet]
      split_ifs
      · exact .inl rfl
      · exact .inr (.inl rfl)

/-- Two more of them reach 8-bit mode from each of these. -/
theorem three_threes_reach_e8 (l : Lcd) : [0x3, 0x3, 0x3].foldl latchNibble l = .e8 := by
  show latchNibble (latchNibble (latchNibble l 0x3) 0x3) 0x3 = .e8
  rcases latchNibble_0x3_cases l with h | h | h <;> rw [h] <;> rfl

theorem three_threes_two_reach_f4h (l : Lcd) : [0x3, 0x3, 0x3, 0x2].foldl latchNibble l = .f4h := by
  show latchNibble ([0x3, 0x3, 0x3].foldl latchNibble l) 0x2 = .f4h
  rw [three_threes_reach_e8]
  rfl

/-- The high nibble of a byte that is no function set with DL = 1 keeps 4-bit mode (R115, R162). -/
theorem latchNibble_held_hiNibble {b : Byte} (h : keepsFourBitMode b = true) (v : Nibble) :
    latchNibble (.f4l (hiNibble b)) v = .f4h := by
  have held : ∀ b : Byte, keepsFourBitMode b = true →
      (if isFunctionSet (hiNibble b) then afterFunctionSet (hiNibble b) else .f4h) = Lcd.f4h := by decide
  exact held b h

/-! ## What the LCD side sees of a list -/

/-- SEND_NIBBLE latches its nibble once (R86, R114). -/
theorem seen_sendNibble (p : Params) (n : Nibble) (rs : Bool) (x : Byte × Nibble × Lcd) :
    (writtenBytes (sendNibble p n rs)).foldl seen x = (latch rs, n, latchNibble x.2.2 n) :=
  seen_nibble n x.2.1 rs x.1 x.2.2

/-- SEND_BYTE of a byte that is no function set with DL = 1 keeps the 4-bit framing (R92, R115). -/
theorem seen_sendByte (p : Params) {b : Byte} (hb : keepsFourBitMode b = true) (rs : Bool) {x : Byte × Nibble × Lcd}
    (hx : x.2.2 = .f4h) :
    (writtenBytes (sendByte p b rs)).foldl seen x = (latch rs, loNibble b, .f4h) := by
  rw [sendByte, writtenBytes_append, List.foldl_append, seen_sendNibble, seen_sendNibble, hx]
  show (latch rs, loNibble b, latchNibble (.f4l (hiNibble b)) (loNibble b)) = _
  rw [latchNibble_held_hiNibble hb]

/-- The nibbles up to INIT's configuration bytes reach 4-bit mode from any LCD side (R102, R115). -/
theorem seen_bringUp (p : Params) (x : Byte × Nibble × Lcd) :
    (writtenBytes (convergenceActions p ++ fourBitActions p)).foldl seen x = (latch false, 0x2, .f4h) := by
  have hwait : ∀ (w : Nat) (y : Byte × Nibble × Lcd),
      (writtenBytes (initNibble p w)).foldl seen y = (latch false, 0x3, latchNibble y.2.2 0x3) :=
    fun _ y => seen_sendNibble p 0x3 false y
  simp only [convergenceActions, fourBitActions, writtenBytes_append, List.foldl_append, hwait, seen_sendNibble]
  exact congrArg (fun l => (latch false, 0x2, l)) (three_threes_two_reach_f4h x.2.2)

/-- INIT whose configuration bytes are no function set with DL = 1 ends in 4-bit mode, from any LCD side (R109, R115). -/
theorem seen_initActions {p : Params} (hfunction : keepsFourBitMode p.cfgFunctionSet = true)
    (hdisplay : keepsFourBitMode p.cfgDisplayControl = true) (hclear : keepsFourBitMode p.cfgClear = true)
    (hentry : keepsFourBitMode p.cfgEntryMode = true) (x : Byte × Nibble × Lcd) :
    (writtenBytes (initActions p)).foldl seen x = (latch false, loNibble p.cfgEntryMode, .f4h) := by
  have hparts : writtenBytes (initActions p)
      = writtenBytes (convergenceActions p ++ fourBitActions p) ++ writtenBytes (configurationActions p) := rfl
  rw [hparts, List.foldl_append, seen_bringUp]
  simp only [configurationActions, writtenBytes_append, List.foldl_append, seen_sendByte p hfunction, seen_sendByte p hdisplay,
    seen_sendByte p hclear, seen_sendByte p hentry]

end Sys2Proof.Machine
end

section
/-! SUPPORT. The statements about INIT and the controller, settled (42_init.md). -/

namespace Sys2Proof.Machine

/-- Settles O9: the list with the strobe bytes of each configuration byte as masks of it. -/
theorem initList : Obligations.InitList := by
  intro p d
  refine ⟨?list, congrArg List.length ?list, congrArg writtenBytes ?list, minCycles_initActions_of_legal⟩
  show initActions p = _
  rw [initActions, configurationActions, sendByte_eq, sendByte_eq, sendByte_eq, sendByte_eq]
  rfl

/-- Settles O17: the run of INIT's list, whose bytes are those of O9. -/
theorem initRunsToCompletion : Obligations.InitRunsToCompletion := by
  rintro s t n hlegal hs hf hp hn rfl him
  obtain ⟨-, -, hbytes, -⟩ := initList s.params 0x00
  obtain ⟨u, hu, ⟨hseq, hresp, hphase, hfailed, hop, -, hact, hwcnt, hparams, hedge, holder, haddr, hnewer⟩, -⟩ :=
    run_init hlegal hn him
  rw [writtenBytes_initActions_length] at hresp hwcnt holder haddr hnewer
  rw [minCycles_initActions_of_legal hlegal, ← hn] at hedge
  have hword : respWord .ok 0b00 24 = 0x0018 := by decide
  exact ⟨execInit_uninitialized hs hf hp, u, hu, hseq, hresp.trans hword, hphase, hfailed.trans hf, hop, hact, hwcnt, hparams,
    hedge, holder, haddr, hnewer.trans hbytes⟩

/-- Settles O38: the abort keeps `PHASE`, and the list has reached the phase of the failing write. -/
theorem phaseAfterAFailedInit : Obligations.PhaseAfterAFailedInit := by
  intro s t hinv hop hs hr hv he hst
  have hprogress := hinv.progress (by rw [hs]; rfl)
  rw [step_await_error hr hs hv he] at hst
  obtain rfl := Host.Outcome.next.inj hst
  exact ⟨rfl, hprogress.phase_at_init_write hop hs⟩

/-- Settles O53: the bring-up nibbles reach 4-bit mode from any LCD side, and the configuration bytes keep it. -/
theorem initConvergesTheController : Obligations.InitConvergesTheController := by
  intro s t n hlegal hs hf hp hfunction hdisplay hclear hentry hn ht him
  obtain rfl := Host.Outcome.next.inj ((execInit_uninitialized hs hf hp).symm.trans ht)
  obtain ⟨u, hu, h, hseen⟩ := run_init hlegal hn him
  rw [seen_initActions hfunction hdisplay hclear hentry] at hseen
  simp only [Prod.mk.injEq] at hseen
  obtain ⟨hexpander, -, hlcd⟩ := hseen
  exact ⟨u, hu, h.phase, hlcd, hexpander⟩

/-- Either write in Ready keeps the 4-bit framing (R96, R98, R115). -/
theorem write_keeps_framing {o : BitVec 2} (ho : o = opWriteCommand ∨ o = opWriteData) {s t : State} {d : Byte} {n : Nat}
    (hlegal : s.params.Legal) (hs : s.seq = .idle) (hf : s.failed = false) (hp : s.phase = .ready) (hlcd : s.lcd = .f4h)
    (hd : keepsFourBitMode d = true) (hn : n = 8 + 2 * (s.params.dStrobe + s.params.dSettle))
    (ht : acceptWrite o d s = .next t) (him : t.Immediate n) :
    ∃ u, runSteps n t = .next u ∧ u.resp = 0x0004 ∧ u.lcd = .f4h := by
  rw [acceptWrite_ready hs hf hp, start_write ho] at ht
  obtain rfl := Host.Outcome.next.inj ht
  rw [← minCycles_sendByte_of_legal hlegal d (rsOfOp o)] at hn
  subst hn
  obtain ⟨u, hu, h, hseen⟩ := run_operation_seen hlegal (actions_write ho s.params d) him
  rw [seen_sendByte s.params hd _ hlcd] at hseen
  have hresp : respWord .ok 0b00 4 = 0x0004 := by decide
  exact ⟨u, hu, h.response.trans hresp, congrArg (·.2.2) hseen⟩

/-- Settles O54: both writes are SEND_BYTE of their byte. -/
theorem writesKeepTheFraming : Obligations.WritesKeepTheFraming := by
  rintro s t i d n (rfl | rfl)
  · exact write_keeps_framing (.inl rfl)
  · exact write_keeps_framing (.inr rfl)

/-- Settles O51: the update by numbers, and EN falls once in a strobe and latch pair. -/
theorem controllerLatchesEachNibble : Obligations.ControllerLatchesEachNibble := by
  intro v h
  refine ⟨?eightBit, rfl, ?held, fun rs e m₁ m₂ u l => observe_strobe_latch v u rs e m₁ m₂ l,
    fun s rs => ⟨fun hb => ?strobe, fun hb => ?latch⟩⟩
  case eightBit | held => simp [latchNibble, isFunctionSet_eq_decide, afterFunctionSet_eq_ite]
  case strobe | latch => simp [hb, strobedAfter]

/-- Settles O52: after the first `0x3` three cases are left, and the next two bring them together. -/
theorem initNibblesConverge : Obligations.InitNibblesConverge := fun l =>
  ⟨three_threes_reach_e8 l, three_threes_two_reach_f4h l⟩

end Sys2Proof.Machine
end

section
/-! SUPPORT. The edge that accepts a word, one equation for each way it can end; what `exec` can do; and the words of the answers
(30_encoding.md R63, R72; 43_system.md R121). -/

namespace Sys2Proof.Machine

/-! ## The decoded request, and the fields of its word -/

theorem accept_legal {w : Word} {i : Instr} (h : decode w = .legal i) (s : State) : accept w s = exec i s := by
  rw [accept, h]

/-- A request is its own word, accepted. -/
theorem accept_encode (i : Instr) (s : State) : accept (encode i) s = exec i s := accept_legal (decode_encode i) s

/-- The operation number, the low two bits of `OP`, and the operand of a request, read off its word (R22, R63, R64). -/
theorem fields_of_decode {w : Word} {i : Instr} (h : decode w = .legal i) :
    w.extractLsb' 12 2 = i.opcode.setWidth 2 ∧ w.extractLsb' 0 8 = i.operand := by
  have hlow : w.extractLsb' 12 2 = (opField w).setWidth 2 := (BitVec.setWidth_extractLsb'_of_le (by decide)).symm
  rw [hlow, ← encode_of_decode h, opField_encode]
  exact ⟨rfl, dataField_encode i⟩

/-- Both writes accept with the operation number and the byte of their word (R66, R96, R98). -/
theorem accept_write {w : Word} {d : Byte} (h : decode w = .legal (.writeCommand d) ∨ decode w = .legal (.writeData d))
    (s : State) : accept w s = acceptWrite (w.extractLsb' 12 2) (w.extractLsb' 0 8) s := by
  rcases h with h | h
  all_goals
    obtain ⟨hop, hdata⟩ := fields_of_decode h
    rw [accept_legal h, hop, hdata]
    rfl

/-! ## The answers and the starts, in order of precedence (R121) -/

theorem accept_illegal {w : Word} {why : Reject} (h : decode w = .illegal why) {s : State} (hs : s.seq = .idle) :
    accept w s = .next (s.respond .illegalOp) := by
  rw [accept, h]
  exact whenIdle_idle hs

theorem exec_status_of_idle {s : State} (hs : s.seq = .idle) : exec .status s = .next (s.respond .ok) := whenIdle_idle hs

theorem exec_init_badState {s : State} (hs : s.seq = .idle) (hf : s.failed = false) (hp : s.phase ≠ .uninitialized) :
    exec .init s = .next (s.respond .badState) := by
  simp [exec, execInit, whenIdle_idle hs, hf, hp]

theorem acceptWrite_notReady {s : State} (hs : s.seq = .idle) (hf : s.failed = false) (hp : s.phase ≠ .ready)
    (o : BitVec 2) (d : Byte) : acceptWrite o d s = .next (s.respond .notReady) := by
  simp [acceptWrite, whenIdle_idle hs, hf, hp]

/-- INIT starts with the operation number and the zero operand of its word (R104). -/
theorem accept_init_start {w : Word} (h : decode w = .legal .init) {s : State} (hs : s.seq = .idle)
    (hf : s.failed = false) (hp : s.phase = .uninitialized) :
    accept w s = start s (w.extractLsb' 12 2) (w.extractLsb' 0 8) := by
  obtain ⟨hop, hdata⟩ := fields_of_decode h
  rw [accept_legal h, hop, hdata, exec, execInit, whenIdle_idle hs, if_neg (by simp [hf]), if_neg (by simp [hp])]
  rfl

/-! ## What `exec` can do -/

/-- All that `exec` can do: nothing while busy, an answer at once, or the start of an operation with its first strobe. -/
theorem exec_cases {i : Instr} {s t : State} (h : exec i s = .next t) :
    (s.seq ≠ .idle ∧ t = s)
    ∨ (∃ c, AnsweredAtOnce s (.legal i) c ∧ t = s.respond c)
    ∨ (∃ o d b, Starts s (.legal i) o d b ∧ t = (s.accepted o d).begin (.write b)) := by
  by_cases hs : s.seq = .idle
  · rw [← accept_encode] at h
    exact .inr (decode_encode i ▸ accept_cases hs h)
  · rw [exec_of_busy hs] at h
    exact .inl ⟨hs, (Host.Outcome.next.inj h).symm⟩

theorem exec_answers (i : Instr) (s : State) : ∃ t, exec i s = .next t := by
  by_cases hs : s.seq = .idle
  · exact accept_encode i s ▸ accept_answers hs (encode i)
  · exact ⟨s, exec_of_busy hs i⟩

/-! ## The words of the answers -/

/-- A response without an error kind is its code over its byte (R72). -/
theorem respWord_eq_or (c : Code) (b : Byte) :
    respWord c 0b00 b = (c.bits.setWidth 16 <<< 12) ||| b.setWidth 16 := by
  cases c <;> revert b <;> decide

/-- STATUS answers OK, code 0, so the word is the STATUS byte (R124). -/
theorem respWord_ok (b : Byte) : respWord .ok 0b00 b = b.setWidth 16 := by
  rw [respWord_eq_or]
  exact BitVec.zero_or

theorem statusByte_ready {s : State} (hf : s.failed = false) (hp : s.phase = .ready) : s.statusByte = 0x0B := by
  rw [State.statusByte, hf, hp]
  decide

/-- Without a failure two phases are left between operations, and with one all four are (R125). -/
theorem statusByte_mem_of_settled {s : State} (h : s.failed = false → s.phase = .uninitialized ∨ s.phase = .ready) :
    s.statusByte ∈ ([0x08, 0x0B, 0x0C, 0x0D, 0x0E, 0x0F] : List Byte) := by
  unfold State.statusByte
  cases hf : s.failed with
  | false => rcases h hf with hp | hp <;> rw [hp] <;> decide
  | true => cases s.phase <;> decide

end Sys2Proof.Machine
end

section
/-! SUPPORT. The statements about the requests at the accepting edge, settled (43_system.md). -/

namespace Sys2Proof.Machine

/-- Settles O14: the edge is `accept` of the word, with one equation for each case of R121. -/
theorem acceptFollowsThePrecedence : Obligations.AcceptFollowsThePrecedence := by
  rintro s _ _ hs hr hv rfl rfl
  rw [step_idle_request hr hs hv]
  have hs : s.clocked.seq = .idle := hs
  exact ⟨fun _ hd => accept_illegal hd hs,
    fun hd => (accept_legal hd _).trans (exec_status_of_idle hs),
    fun _ hd hi hf => (accept_legal hd _).trans (exec_of_failed hs hf hi),
    fun hd hf hp => (accept_legal hd _).trans (exec_init_badState hs hf hp),
    fun _ hd hf hp => (accept_write hd _).trans (acceptWrite_notReady hs hf hp _ _),
    fun hd hf hp => accept_init_start hd hs hf hp,
    fun _ hd hf hp => (accept_write hd _).trans (acceptWrite_ready hs hf hp _ _)⟩

/-- Settles O15: the decoder refuses each of the three kinds of word (O1), and a refused word is answered before any other check. -/
theorem illegalWordsAreAnswered : Obligations.IllegalWordsAreAnswered := by
  rintro s w hs hr hv rfl hw
  obtain ⟨hrsv, -, -, -, -, hdata, hop⟩ := decoderOfEveryWord s.pins.reqWord
  have hillegal : ∃ why, decode s.pins.reqWord = .illegal why := hw.elim hop fun h => h.elim hrsv fun h => hdata h.1 h.2
  obtain ⟨why, hd⟩ := hillegal
  have hstep := (step_idle_request hr hs hv).trans (accept_illegal (s := s.clocked) hd hs)
  rw [State.respond, respWord_eq_or] at hstep
  exact hstep

/-- Settles O20. -/
theorem execAnswersInEveryState : Obligations.ExecAnswersInEveryState := exec_answers

/-- Settles O21: `exec` leaves the state, or answers, or starts an operation, and each writes the registers it names. -/
theorem execFrame : Obligations.ExecFrame := by
  intro i s t h
  rcases exec_cases h with ⟨-, rfl⟩ | ⟨c, -, rfl⟩ | ⟨o, d, b, -, rfl⟩ <;> simp

/-- Settles O22: an accepted word that leaves the block in RESPOND was answered at once, for a start leaves it in ISSUE. -/
theorem answersChangeOnlyRespAndSeq : Obligations.AnswersChangeOnlyRespAndSeq := by
  intro s t hs hr hv h hresp
  rw [step_idle_request hr hs hv] at h
  rcases accept_cases (s := s.clocked) hs h with ⟨c, -, rfl⟩ | ⟨o, d, b, -, rfl⟩
  · rfl
  · cases hresp

/-- Settles O41: in IDLE the invariant leaves Uninitialized and Ready to a block that has not failed. -/
theorem answersBetweenOperations : Obligations.AnswersBetweenOperations := by
  intro s hinv hs
  have hsettled := hinv.settled (by rw [hs]; rfl)
  refine ⟨⟨_, exec_status_of_idle hs, ?_⟩, fun hf hp => ?_⟩
  · rw [State.respond_resp, respWord_ok]
    exact List.mem_map_of_mem (f := BitVec.setWidth 16) (statusByte_mem_of_settled hsettled)
  · have hready := (hsettled hf).resolve_left hp
    have hword : respWord .badState 0b00 0x0B = 0x300B := by decide
    have hinit := exec_init_badState hs hf hp
    rw [State.respond, statusByte_ready hf hready, hword] at hinit
    exact ⟨hready, hinit⟩

/-- Settles O12. -/
theorem stepRunsTheDecodedRequest : Obligations.StepRunsTheDecodedRequest :=
  fun s _ hs hr hv hd => (step_idle_request hr hs hv).trans (accept_legal hd s.clocked)

/-- Settles O16. -/
theorem statusCompletesInEveryState : Obligations.StatusCompletesInEveryState := by
  intro s hs
  rw [exec_status_of_idle hs, State.respond, respWord_ok]

end Sys2Proof.Machine
end

section
/-! SUPPORT. A failed block outside an operation: each edge without reset only answers, so nothing but `SEQ`, `RESP` and the
responses taken moves (60_exceptions.md R137, R138). -/

namespace Sys2Proof.Machine

/-- `t` is `s` but for what answering a request writes: `SEQ`, which stays in IDLE or RESPOND, `RESP`, and the responses taken
(R122, R123). -/
def State.OnlyAnswers (s t : State) : Prop :=
  ∃ (q : Seq) (r : Word) (l : List Taken), q.running = false ∧ t = { s with seq := q, resp := r, respTrace := l }

theorem State.onlyAnswers_self {s : State} (h : s.seq.running = false) : s.OnlyAnswers s := ⟨_, _, _, h, rfl⟩

theorem State.onlyAnswers_respond (s : State) (c : Code) : s.OnlyAnswers (s.respond c) := ⟨_, _, _, rfl, rfl⟩

theorem State.onlyAnswers_responseTaken (s : State) : s.OnlyAnswers s.responseTaken := ⟨_, _, _, rfl, rfl⟩

theorem State.OnlyAnswers.resting {s t : State} (h : s.OnlyAnswers t) : t.seq.running = false := by
  obtain ⟨q, r, l, hq, rfl⟩ := h
  exact hq

theorem State.OnlyAnswers.failed {s t : State} (h : s.OnlyAnswers t) : t.failed = s.failed := by
  obtain ⟨q, r, l, -, rfl⟩ := h
  rfl

/-- The clock touches nothing that answering writes. -/
theorem State.OnlyAnswers.clocked_trans {s t u : State} (h : s.OnlyAnswers t) (h' : t.clocked.OnlyAnswers u) :
    s.clocked.OnlyAnswers u := by
  obtain ⟨q, r, l, -, rfl⟩ := h
  exact h'

/-- In IDLE with `FAILED = 1` every word is answered at once (R133, R137). -/
theorem accept_of_failed {s : State} (hs : s.seq = .idle) (hf : s.failed = true) (w : Word) :
    ∃ c, accept w s = .next (s.respond c) := by
  obtain ⟨t, ht⟩ := accept_answers hs w
  rcases accept_cases hs ht with ⟨c, -, rfl⟩ | ⟨o, d, b, hstart, -⟩
  · exact ⟨c, ht⟩
  · obtain ⟨hnot, -, -⟩ := hstart.checked
    cases hf.symm.trans hnot

/-- One edge of a failed block outside an operation. -/
theorem step_of_failed {s : State} (hf : s.failed = true) (hrest : s.seq.running = false) (hr : s.pins.rst = false) :
    ∃ t, step s = .next t ∧ s.clocked.OnlyAnswers t := by
  cases hs : s.seq with
  | idle =>
    cases hv : s.pins.reqValid with
    | true =>
      obtain ⟨c, hc⟩ := accept_of_failed (s := s.clocked) hs hf s.pins.reqWord
      exact ⟨_, (step_idle_request hr hs hv).trans hc, s.clocked.onlyAnswers_respond c⟩
    | false => exact ⟨_, step_idle_quiet hr hs hv, State.onlyAnswers_self hrest⟩
  | respond =>
    cases hb : s.pins.respReady with
    | true => exact ⟨_, step_respond_taken hr hs hb, s.clocked.onlyAnswers_responseTaken⟩
    | false => exact ⟨_, step_respond_wait hr hs hb, State.onlyAnswers_self hrest⟩
  | issue | await | delay | setph => rw [hs] at hrest; cases hrest

/-- Any number of edges of a failed block outside an operation (R137, R138). -/
theorem run_of_failed {n : Nat} {s : State} (hf : s.failed = true) (hrest : s.seq.running = false) (hr : s.NoReset n) :
    ∃ t, runSteps n s = .next t ∧ (s.elapsed n).OnlyAnswers t := by
  induction n with
  | zero => exact ⟨s, rfl, State.onlyAnswers_self hrest⟩
  | succ n ih =>
    obtain ⟨t, hrun, ht⟩ := ih (hr.mono n.le_succ)
    obtain ⟨u, hu, hedge⟩ := step_of_failed (ht.failed.trans hf) ht.resting (hr.after hrun)
    exact ⟨u, (runSteps_succ_last hrun).trans hu, clocked_elapsed s n ▸ ht.clocked_trans hedge⟩

end Sys2Proof.Machine
end

section
/-! SUPPORT. The statements about the failed block, settled (60_exceptions.md R132, R137, R138). -/

namespace Sys2Proof.Machine

/-- Settles O34: the abort leaves a failed block in RESPOND, and such a block only answers. -/
theorem abortLatchesTheFailure : Obligations.AbortLatchesTheFailure := by
  rintro s _ hs hr hv rfl he
  refine ⟨_, step_await_error hr hs hv he, rfl, rfl, rfl, rfl, rfl, rfl, rfl, rfl, rfl, rfl, rfl, rfl, rfl, fun n hn => ?_⟩
  obtain ⟨_, hrun, q, r, l, hq, rfl⟩ := run_of_failed rfl rfl hn
  exact ⟨_, hrun, rfl, rfl, rfl, hq⟩

/-- Settles O36: a failed block outside an operation only answers, and answering writes none of these registers. -/
theorem failedBlockWritesNothing : Obligations.FailedBlockWritesNothing := by
  intro n s hf hrest hr
  obtain ⟨_, hrun, q, r, l, hq, rfl⟩ := run_of_failed hf hrest hr
  exact ⟨_, hrun, hf, hq, rfl, rfl, rfl, rfl, rfl, rfl, rfl, rfl, rfl, rfl, rfl⟩

end Sys2Proof.Machine
end

section
/-! SUPPORT. A reset edge with a scheduled input, and the statement about it, settled (70_reset_and_hazards.md R147, R152). -/

namespace Sys2Proof.Machine

/-- Of the input ports only `rst` enters a reset edge: edges with the ports `p` and `q` have one next state (R152). -/
theorem step_rst_congr (s : State) {p q : Pins} (rest : List Pins) (hp : p.rst = true) (hq : q.rst = true) :
    step { s with inputs := p :: rest } = step { s with inputs := q :: rest } := by
  have hclocked : ({ s with inputs := p :: rest } : State).clocked = ({ s with inputs := q :: rest } : State).clocked := rfl
  rw [step_rst (s := { s with inputs := p :: rest }) hp, step_rst (s := { s with inputs := q :: rest }) hq, hclocked]

/-- Settles O39: the step at `rst = 1` is the reset edge, the three outputs are gated by `rst`, and `rst` is the only port such an
edge reads. -/
theorem resetEdgeResetsEveryRegister : Obligations.ResetEdgeResetsEveryRegister := by
  intro s hr
  refine ⟨⟨_, step_rst hr, rfl, rfl, rfl, rfl, rfl, rfl, rfl, rfl, rfl, rfl, rfl, rfl, rfl⟩, rfl, rfl, rfl, fun p rest hp => ?_⟩
  exact step_rst_congr s rest hp hp

end Sys2Proof.Machine
end

section
/-! SUPPORT. The model's own loading convention: the word that `withFetchWord` presents and the state its edge works on, and the
statement about it, settled (log entry 7). -/

namespace Sys2Proof.Machine

/-- The bits of a 16-bit word stand for that word. -/
@[simp] theorem tableRequestWord_toNat (w : Word) : tableRequestWord 16 w.toNat = w := by
  rw [tableRequestWord, Nat.mod_eq_of_lt w.isLt, BitVec.ofNat_toNat, BitVec.setWidth_eq]

/-- The presented inputs are those of one edge: once they are used up, only `SEQ` tells the two states apart. -/
theorem State.withFetchWord_clocked (s : State) (nbits w : Nat) :
    (s.withFetchWord nbits w).clocked = { s.clocked with seq := .idle } := rfl

/-- Settles O13: the edge after `withFetchWord` is one that accepts the request (O12), and the presented word is `w` itself. -/
theorem withFetchWordRunsTheRequest : Obligations.WithFetchWordRunsTheRequest := by
  intro s w i hd
  have hword : (s.withFetchWord 16 w.toNat).pins.reqWord = w := tableRequestWord_toNat w
  calc step (s.withFetchWord 16 w.toNat)
    _ = exec i (s.withFetchWord 16 w.toNat).clocked := stepRunsTheDecodedRequest _ i rfl rfl rfl (hword.symm ▸ hd)
    _ = exec i { s.clocked with seq := .idle } := by rw [State.withFetchWord_clocked]

end Sys2Proof.Machine
end
